-- ==== Sys2Proof/Word.lean ====
section
/-! DEFINITION. The widths of the engine (00_scope.md R6, R7): bytes, 64-bit words, 8-word states, and the type of the
substitution table. Every value is unsigned. -/

namespace Sys2Proof

/-- A byte (00_scope.md R7). -/
abbrev Byte := BitVec 8

/-- A word of the datapath, of DATA_IN and of DATA_OUT: 64 bits (00_scope.md R6, WORD_BITS and DATA_BITS). -/
abbrev Word := BitVec 64

/-- An 8-word state, 512 bits: H, ST, KR, BLK (00_scope.md R6, STATE_WORDS). -/
abbrev Block := Vector Word 8

/-- The 256 bytes of SBOX_TABLE, as 16 rows of 16 columns: entry 16·row + col stands at row `row`, column `col`, the way
40_sbox_and_round_constants.md R101 prints it. -/
abbrev Sbox := Vector (Vector Byte 16) 16

end Sys2Proof
end

