-- ==== Sys2Proof/Syntax.lean ====
section
/-! DEFINITION. The commands of the engine: one constructor per row of spec/opcode_table.json, with the operands of the row
(30_encoding.md R60, R61), and the pair of words that carries a command. -/

namespace Sys2Proof

/-- One command with its operands. A LEN of 9..15 and a READ_PARAM index of 2..7 can be written here and are ill-formed
(`Instr.wellFormed`). -/
inductive Instr where
  /-- INIT (45_control_commands.md R200). -/
  | init
  /-- ABSORB with LEN = CMD[27:24] and the operand word DATA_IN (43_streaming_absorb.md R160). -/
  | absorb (len : BitVec 4) (dataIn : Word)
  /-- FINALIZE (44_finalization.md R180). -/
  | finalize
  /-- READ_DIGEST with IDX = CMD[2:0] (44_finalization.md R186). -/
  | readDigest (idx : BitVec 3)
  /-- READ_PARAM with IDX = CMD[2:0] (45_control_commands.md R201). -/
  | readParam (idx : BitVec 3)
  deriving DecidableEq, Repr

/-- What the host puts on the command port: the command word CMD and the operand DATA_IN (10_state.md R27). -/
structure Command where
  /-- CMD, 32 bits. -/
  cmd : BitVec 32
  /-- DATA_IN, 64 bits. -/
  dataIn : Word
  deriving DecidableEq, Repr

end Sys2Proof
end

