-- ==== Sys2Proof/WellFormed.lean ====
section
/-! DEFINITION. Which terms of `Instr` are commands of the engine: the limits on LEN and IDX that 30_encoding.md R63, R64
and R66 give. -/

namespace Sys2Proof

/-- The largest byte count of one ABSORB (00_scope.md R6, MAX_ABSORB_LEN). -/
abbrev maxAbsorbLen : Nat := 8

/-- 30_encoding.md R63: "For ABSORB, values 0..8 are legal and 9..15 are illegal". -/
def absorbLenLegal (len : BitVec 4) : Bool := decide (len.toNat ≤ maxAbsorbLen)

/-- 30_encoding.md R64: "IDX 2..7 are illegal for READ_PARAM". -/
def paramIdxLegal (idx : BitVec 3) : Bool := decide (idx.toNat ≤ 1)

/-- A term of `Instr` that some legal command word carries. -/
def Instr.wellFormed : Instr → Bool
  | .init => true
  | .absorb len _ => absorbLenLegal len
  | .finalize => true
  | .readDigest _ => true
  | .readParam idx => paramIdxLegal idx

end Sys2Proof
end

