-- ==== Sys2Proof/Decode.lean ====
section
/-! DEFINITION. The command encoding CMD32 (30_encoding.md R60 to R66): the fields, the decoder, total on every 32-bit word
and refusing by name, the encoder, and the opcode map as the spec prints it. -/

namespace Sys2Proof

/-- OP = CMD[31:28] (30_encoding.md R60). -/
def fieldOp (cmd : BitVec 32) : BitVec 4 := cmd.extractLsb' 28 4

/-- LEN = CMD[27:24] (30_encoding.md R60). -/
def fieldLen (cmd : BitVec 32) : BitVec 4 := cmd.extractLsb' 24 4

/-- RSV = CMD[23:3] (30_encoding.md R60). -/
def fieldRsv (cmd : BitVec 32) : BitVec 21 := cmd.extractLsb' 3 21

/-- IDX = CMD[2:0] (30_encoding.md R60). -/
def fieldIdx (cmd : BitVec 32) : BitVec 3 := cmd.extractLsb' 0 3

/-- Why a command word is illegal: the conditions of 30_encoding.md R66. All of them end in the one status ILLEGAL
(60_exceptions.md R301), so which of several reasons is named is not observable (log 11). -/
inductive IllegalReason where
  /-- "RSV ≠ 0". -/
  | rsvNotZero
  /-- "OP is 0x0 or 0x6..0xF". -/
  | reservedOp
  /-- "LEN ≠ 0 for an OP other than ABSORB". -/
  | lenNotZero
  /-- "LEN > 8 for ABSORB". -/
  | lenTooLarge
  /-- "IDX ≠ 0 for INIT, ABSORB or FINALIZE". -/
  | idxNotZero
  /-- "IDX > 1 for READ_PARAM". -/
  | idxTooLarge
  deriving DecidableEq, Repr

/-- A command without operands: LEN and IDX must be 0 (30_encoding.md R60). -/
def decodePlain (cmd : BitVec 32) (i : Instr) : Except IllegalReason Instr :=
  if fieldLen cmd ≠ 0#4 then .error .lenNotZero
  else if fieldIdx cmd ≠ 0#3 then .error .idxNotZero
  else .ok i

/-- ABSORB: IDX must be 0 and LEN at most 8 (30_encoding.md R62, R63). -/
def decodeAbsorb (cmd : BitVec 32) (dataIn : Word) : Except IllegalReason Instr :=
  if fieldIdx cmd ≠ 0#3 then .error .idxNotZero
  else if absorbLenLegal (fieldLen cmd) then .ok (.absorb (fieldLen cmd) dataIn)
  else .error .lenTooLarge

/-- READ_DIGEST: LEN must be 0, every IDX is legal (30_encoding.md R62, R64). -/
def decodeReadDigest (cmd : BitVec 32) : Except IllegalReason Instr :=
  if fieldLen cmd ≠ 0#4 then .error .lenNotZero
  else .ok (.readDigest (fieldIdx cmd))

/-- READ_PARAM: LEN must be 0 and IDX at most 1 (30_encoding.md R62, R64). -/
def decodeReadParam (cmd : BitVec 32) : Except IllegalReason Instr :=
  if fieldLen cmd ≠ 0#4 then .error .lenNotZero
  else if paramIdxLegal (fieldIdx cmd) then .ok (.readParam (fieldIdx cmd))
  else .error .idxTooLarge

/-- The decoder: the command that the words of `c` carry, or the reason why CMD is illegal. "A model's decoder refuses
nothing: every 32-bit word decodes, to a command or to ILLEGAL" (93_implementation_defined.md U3). DATA_IN is ignored by
every command but ABSORB (30_encoding.md R61). -/
def decode (c : Command) : Except IllegalReason Instr :=
  if fieldRsv c.cmd ≠ 0#21 then .error .rsvNotZero
  else if fieldOp c.cmd = 0x1#4 then decodePlain c.cmd .init
  else if fieldOp c.cmd = 0x2#4 then decodeAbsorb c.cmd c.dataIn
  else if fieldOp c.cmd = 0x3#4 then decodePlain c.cmd .finalize
  else if fieldOp c.cmd = 0x4#4 then decodeReadDigest c.cmd
  else if fieldOp c.cmd = 0x5#4 then decodeReadParam c.cmd
  else .error .reservedOp

/-- A command word with RSV = 0, from its three other fields (30_encoding.md R60). -/
def cmdWord (op len : BitVec 4) (idx : BitVec 3) : BitVec 32 := op ++ len ++ 0#21 ++ idx

/-- The words that the assembler syntax gives a command (30_encoding.md R68). -/
def encode : Instr → Command
  | .init => ⟨cmdWord 0x1 0 0, 0⟩
  | .absorb len dataIn => ⟨cmdWord 0x2 len 0, dataIn⟩
  | .finalize => ⟨cmdWord 0x3 0 0, 0⟩
  | .readDigest idx => ⟨cmdWord 0x4 0 idx, 0⟩
  | .readParam idx => ⟨cmdWord 0x5 0 idx, 0⟩

/-- A row of the opcode map of 30_encoding.md R62. -/
structure OpcodeRow where
  /-- The mnemonic, as spec/opcode_table.json spells it. -/
  mnemonic : String
  /-- The legal pattern. -/
  pattern : BitVec 32
  /-- The bits that must equal the pattern's. -/
  mask : BitVec 32
  /-- The extra condition: the largest legal LEN, where the row limits LEN. -/
  lenLimit : Option Nat
  deriving DecidableEq, Repr

/-- The opcode map of 30_encoding.md R62, row by row. -/
def opcodeMap : List OpcodeRow :=
  [⟨"INIT", 0x10000000, 0xFFFFFFFF, none⟩,
   ⟨"ABSORB", 0x20000000, 0xF0FFFFFF, some 8⟩,
   ⟨"FINALIZE", 0x30000000, 0xFFFFFFFF, none⟩,
   ⟨"READ_DIGEST", 0x40000000, 0xFFFFFFF8, none⟩,
   ⟨"READ_PARAM", 0x50000000, 0xFFFFFFFE, none⟩]

/-- The mnemonic of a command. -/
def Instr.mnemonic : Instr → String
  | .init => "INIT"
  | .absorb _ _ => "ABSORB"
  | .finalize => "FINALIZE"
  | .readDigest _ => "READ_DIGEST"
  | .readParam _ => "READ_PARAM"

/-- "A decoder takes CMD & mask == pattern (and for ABSORB, LEN ≤ 8) as legal" (30_encoding.md R62). -/
def OpcodeRow.accepts (r : OpcodeRow) (cmd : BitVec 32) : Bool :=
  cmd &&& r.mask == r.pattern && r.lenLimit.all fun n => (fieldLen cmd).toNat ≤ n

/-- The conditions under which 30_encoding.md R66 calls a command word illegal, in its own order. -/
def illegalWord (cmd : BitVec 32) : Bool :=
  fieldOp cmd == 0x0#4 || decide (0x6 ≤ (fieldOp cmd).toNat) ||
  fieldRsv cmd != 0#21 ||
  (fieldLen cmd != 0#4 && fieldOp cmd != 0x2#4) ||
  (decide (8 < (fieldLen cmd).toNat) && fieldOp cmd == 0x2#4) ||
  (fieldIdx cmd != 0#3 && (fieldOp cmd == 0x1#4 || fieldOp cmd == 0x2#4 || fieldOp cmd == 0x3#4)) ||
  (decide (1 < (fieldIdx cmd).toNat) && fieldOp cmd == 0x5#4)

/-- The command whose bits are w: CMD is bits 31..0, and DATA_IN, where an instruction has it, is bits 95..32 (log 13).
Bits at and above nbits are 0. -/
def commandOfTableWord (nbits w : Nat) : Command :=
  ⟨BitVec.ofNat 32 (w % 2 ^ nbits), BitVec.ofNat 64 ((w % 2 ^ nbits) / 2 ^ 32)⟩

/-- What the decoder reads from an instruction whose bits are w, numbered as spec/opcode_table.json numbers them. -/
def decodeTableWord (nbits w : Nat) : Option Instr :=
  match decode (commandOfTableWord nbits w) with
  | .ok i => some i
  | .error _ => none

end Sys2Proof
end

