-- ==== Sys2Proof/Config.lean ====
section
/-! DEFINITION. What an implementation of the engine fixes: the four named parameters of 00_scope.md R6. A configuration
is plain data, held in State, so that every claim is about every configuration. The spec leaves no value open beyond
them, so there is no free value. -/

namespace Sys2Proof

/-- The parameter DIFF_ROTATION (41_gf_multiplier_and_diffusion.md R123). -/
inductive DiffRotation where
  /-- Row r of the diffusion matrix is row 0 rotated right by r places: the default. -/
  | right
  /-- Row r of the diffusion matrix is row 0 rotated left by r places. -/
  | left
  deriving DecidableEq, Repr

/-- The parameter LENGTH_WINDOW (44_finalization.md R183). -/
inductive LengthWindow where
  /-- The length field is built from CNT[255:192]: the default. -/
  | high64
  /-- The length field is built from CNT[63:0]. -/
  | low64
  deriving DecidableEq, Repr

/-- The parameter COUNTER_OVERFLOW_POLICY (43_streaming_absorb.md R161). -/
inductive OverflowPolicy where
  /-- An ABSORB that would pass 2^256 − 1 is rejected with COUNTER_OVERFLOW: the default. -/
  | reject
  /-- CNT takes the sum modulo 2^256 and the command proceeds. -/
  | wrap
  deriving DecidableEq, Repr

/-- The named parameters of one engine (00_scope.md R6). `sbox` is the ROM SBOX_TABLE (10_state.md R26). -/
structure Config where
  /-- SBOX: the 256-byte substitution table. -/
  sbox : Sbox
  /-- DIFF_ROTATION. -/
  diffRotation : DiffRotation
  /-- LENGTH_WINDOW. -/
  lengthWindow : LengthWindow
  /-- COUNTER_OVERFLOW_POLICY. -/
  overflowPolicy : OverflowPolicy
  deriving DecidableEq, Repr

end Sys2Proof
end

