-- ==== Sys2Proof/Machine/Bytes.lean ====
section
/-! DEFINITION. Bytes of words and words of bytes, big-endian everywhere (00_scope.md R7; 20_memory.md R41 to R46). -/

namespace Sys2Proof.Machine

/-- byte(w, j) = w[63−8j : 56−8j]: byte 0 is the most significant (00_scope.md R7). -/
def byte (w : Word) (j : Fin 8) : Byte := w.extractLsb' (56 - 8 * j.val) 8

/-- pack(b0, …, b7): the big-endian word of eight bytes (00_scope.md R7). -/
def pack (b : Fin 8 → Byte) : Word := b 0 ++ b 1 ++ b 2 ++ b 3 ++ b 4 ++ b 5 ++ b 6 ++ b 7

/-- The eight bytes of a word in order, byte 0 first (20_memory.md R42, R43). -/
def bytesOfWord (w : Word) : List Byte :=
  [byte w 0, byte w 1, byte w 2, byte w 3, byte w 4, byte w 5, byte w 6, byte w 7]

/-- The 8-word state whose word i is f i. -/
def blockOfFn (f : Fin 8 → Word) : Block := #v[f 0, f 1, f 2, f 3, f 4, f 5, f 6, f 7]

/-- The 8-word state of zeros. -/
def zeroBlock : Block := blockOfFn fun _ => 0

/-- ⊕ on two 8-word states, word by word (00_scope.md R7). -/
def xorBlock (a b : Block) : Block := blockOfFn fun i => a[i] ^^^ b[i]

/-- LOAD_BLOCK(b): word i is bytes 8i to 8i+7, big-endian (20_memory.md R41). The engine calls it on 64 bytes only; a
position past the end of a shorter list, which only a state outside `Inv` can offer, reads as 0 (log 4). -/
def loadBlock (b : List Byte) : Block := blockOfFn fun i => pack fun j => b.getD (8 * i.val + j.val) 0

/-- The 32 bytes of a 256-bit value, big-endian: byte i is bits 255−8i down to 248−8i (20_memory.md R44, R45). -/
def bytesOf256 (x : BitVec 256) : List Byte := (List.range 32).map fun i => x.extractLsb' (248 - 8 * i) 8

/-- The digest that a chaining value stands for: byte 8i+j is byte(H[i], j) (20_memory.md R43). -/
def digestBytes (h : Block) : List Byte := h.toList.flatMap bytesOfWord

end Sys2Proof.Machine
end

