-- ==== Sys2Proof/Machine/Sbox.lean ====
section
/-! DEFINITION. Components 1 and 2 of the engine: the substitution table and the round constants
(40_sbox_and_round_constants.md R100 to R106). -/

namespace Sys2Proof.Machine

/-- SBOX(x) = SBOX_TABLE[x] (40_sbox_and_round_constants.md R100): row x[7:4], column x[3:0]. -/
def substitute (t : Sbox) (x : Byte) : Byte :=
  (t[(x.extractLsb' 4 4).toNat]'(x.extractLsb' 4 4).isLt)[(x.extractLsb' 0 4).toNat]'(x.extractLsb' 0 4).isLt

/-! The rows of the table of 40_sbox_and_round_constants.md R101. -/

def sboxRow0 : Vector Byte 16 :=
  #v[0x18, 0x23, 0xc6, 0xe8, 0x87, 0xb8, 0x01, 0x4f, 0x36, 0xa6, 0xd2, 0xf5, 0x79, 0x6f, 0x91, 0x52]
def sboxRow1 : Vector Byte 16 :=
  #v[0x60, 0xbc, 0x9b, 0x8e, 0xa3, 0x0c, 0x7b, 0x35, 0x1d, 0xe0, 0xd7, 0xc2, 0x2e, 0x4b, 0xfe, 0x57]
def sboxRow2 : Vector Byte 16 :=
  #v[0x15, 0x77, 0x37, 0xe5, 0x9f, 0xf0, 0x4a, 0xda, 0x58, 0xc9, 0x29, 0x0a, 0xb1, 0xa0, 0x6b, 0x85]
def sboxRow3 : Vector Byte 16 :=
  #v[0xbd, 0x5d, 0x10, 0xf4, 0xcb, 0x3e, 0x05, 0x67, 0xe4, 0x27, 0x41, 0x8b, 0xa7, 0x7d, 0x95, 0xd8]
def sboxRow4 : Vector Byte 16 :=
  #v[0xfb, 0xee, 0x7c, 0x66, 0xdd, 0x17, 0x47, 0x9e, 0xca, 0x2d, 0xbf, 0x07, 0xad, 0x5a, 0x83, 0x33]
def sboxRow5 : Vector Byte 16 :=
  #v[0x63, 0x02, 0xaa, 0x71, 0xc8, 0x19, 0x49, 0xd9, 0xf2, 0xe3, 0x5b, 0x88, 0x9a, 0x26, 0x32, 0xb0]
def sboxRow6 : Vector Byte 16 :=
  #v[0xe9, 0x0f, 0xd5, 0x80, 0xbe, 0xcd, 0x34, 0x48, 0xff, 0x7a, 0x90, 0x5f, 0x20, 0x68, 0x1a, 0xae]
def sboxRow7 : Vector Byte 16 :=
  #v[0xb4, 0x54, 0x93, 0x22, 0x64, 0xf1, 0x73, 0x12, 0x40, 0x08, 0xc3, 0xec, 0xdb, 0xa1, 0x8d, 0x3d]
def sboxRow8 : Vector Byte 16 :=
  #v[0x97, 0x00, 0xcf, 0x2b, 0x76, 0x82, 0xd6, 0x1b, 0xb5, 0xaf, 0x6a, 0x50, 0x45, 0xf3, 0x30, 0xef]
def sboxRow9 : Vector Byte 16 :=
  #v[0x3f, 0x55, 0xa2, 0xea, 0x65, 0xba, 0x2f, 0xc0, 0xde, 0x1c, 0xfd, 0x4d, 0x92, 0x75, 0x06, 0x8a]
def sboxRowA : Vector Byte 16 :=
  #v[0xb2, 0xe6, 0x0e, 0x1f, 0x62, 0xd4, 0xa8, 0x96, 0xf9, 0xc5, 0x25, 0x59, 0x84, 0x72, 0x39, 0x4c]
def sboxRowB : Vector Byte 16 :=
  #v[0x5e, 0x78, 0x38, 0x8c, 0xd1, 0xa5, 0xe2, 0x61, 0xb3, 0x21, 0x9c, 0x1e, 0x43, 0xc7, 0xfc, 0x04]
def sboxRowC : Vector Byte 16 :=
  #v[0x51, 0x99, 0x6d, 0x0d, 0xfa, 0xdf, 0x7e, 0x24, 0x3b, 0xab, 0xce, 0x11, 0x8f, 0x4e, 0xb7, 0xeb]
def sboxRowD : Vector Byte 16 :=
  #v[0x3c, 0x81, 0x94, 0xf7, 0xb9, 0x13, 0x2c, 0xd3, 0xe7, 0x6e, 0xc4, 0x03, 0x56, 0x44, 0x7f, 0xa9]
def sboxRowE : Vector Byte 16 :=
  #v[0x2a, 0xbb, 0xc1, 0x53, 0xdc, 0x0b, 0x9d, 0x6c, 0x31, 0x74, 0xf6, 0x46, 0xac, 0x89, 0x14, 0xe1]
def sboxRowF : Vector Byte 16 :=
  #v[0x16, 0x3a, 0x69, 0x09, 0x70, 0xb6, 0xd0, 0xed, 0xcc, 0x42, 0x98, 0xa4, 0x28, 0x5c, 0xf8, 0x86]

/-- The default of the parameter SBOX: the table of 40_sbox_and_round_constants.md R101. -/
def defaultSbox : Sbox :=
  #v[sboxRow0, sboxRow1, sboxRow2, sboxRow3, sboxRow4, sboxRow5, sboxRow6, sboxRow7,
     sboxRow8, sboxRow9, sboxRowA, sboxRowB, sboxRowC, sboxRowD, sboxRowE, sboxRowF]

/-- The set of values in a row of a table, value v as bit v. -/
def rowValues (row : Vector Byte 16) : Nat := row.toList.foldl (fun m x => m ||| 2 ^ x.toNat) 0

/-- The set of values in a table, value v as bit v. -/
def sboxValues (t : Sbox) : Nat := t.toList.foldl (fun m row => m ||| rowValues row) 0

/-- "every value 0–255 appears exactly once" (40_sbox_and_round_constants.md R103): all 256 values occur among the 256
entries. `Laws.Sbox` proves it equal to the substitution being a bijection. -/
def sboxIsPermutation (t : Sbox) : Bool := sboxValues t == 2 ^ 256 - 1

/-- RC[r] (40_sbox_and_round_constants.md R104): the eight table entries from 8(r−1), big-endian; RC[0] is 0 (R106). -/
def roundConstant (t : Sbox) (r : Fin 11) : Word :=
  if r = 0 then 0 else pack fun i => substitute t (BitVec.ofNat 8 (8 * (r.val - 1) + i.val))

/-! The generator of the default table from three 4-bit mini-boxes (40_sbox_and_round_constants.md R102). -/

/-- The mini-box E. -/
def miniE : Vector (BitVec 4) 16 :=
  #v[0x1, 0xB, 0x9, 0xC, 0xD, 0x6, 0xF, 0x3, 0xE, 0x8, 0x7, 0x4, 0xA, 0x2, 0x5, 0x0]

/-- The mini-box R. -/
def miniR : Vector (BitVec 4) 16 :=
  #v[0x7, 0xC, 0xB, 0xD, 0xE, 0x4, 0x9, 0xF, 0x6, 0x3, 0x8, 0xA, 0x2, 0x5, 0x1, 0x0]

/-- Entry u of a mini-box. -/
def miniLookup (t : Vector (BitVec 4) 16) (u : BitVec 4) : BitVec 4 := t[u.toNat]'u.isLt

/-- Einv, "the inverse permutation of E": the place where E has the value u. -/
def miniEinv (u : BitVec 4) : BitVec 4 := BitVec.ofNat 4 (miniE.toList.idxOf u)

/-- SBOX_TABLE[x] by the construction of 40_sbox_and_round_constants.md R102. -/
def generatedSbox (x : Byte) : Byte :=
  let a := miniLookup miniE (x.extractLsb' 4 4)
  let b := miniEinv (x.extractLsb' 0 4)
  let t := miniLookup miniR (a ^^^ b)
  miniLookup miniE (a ^^^ t) ++ miniEinv (b ^^^ t)

end Sys2Proof.Machine
end

