-- ==== Sys2Proof/Machine/State.lean ====
section
/-! DEFINITION. The state of the engine, as plain data: the context registers, the interface registers, the ROM and
parameters, and what the host has yet to issue (10_state.md). -/

namespace Sys2Proof.Machine

/-- PHASE (10_state.md R24). -/
inductive Phase where
  /-- The computation accepts ABSORB and FINALIZE. -/
  | absorbing
  /-- FINALIZE has completed and H holds the digest. -/
  | final
  deriving DecidableEq, Repr

/-- The named status codes of 30_encoding.md R70. -/
inductive Status where
  /-- OK: the command completed. -/
  | ok
  /-- ILLEGAL: ill-formed command word (60_exceptions.md R301). -/
  | illegal
  /-- FINALIZED: ABSORB or FINALIZE with PHASE = FINAL (60_exceptions.md R302). -/
  | finalized
  /-- NOT_FINAL: READ_DIGEST with PHASE = ABSORBING (60_exceptions.md R303). -/
  | notFinal
  /-- COUNTER_OVERFLOW: ABSORB past 2^256 − 1 under REJECT (60_exceptions.md R304). -/
  | counterOverflow
  deriving DecidableEq, Repr

/-- What the host does next: it issues a command (10_state.md R27) or resets the engine between commands
(70_reset_and_hazards.md R400). -/
inductive HostEvent where
  /-- The host writes CMD and DATA_IN. -/
  | command (c : Command)
  /-- The engine is reset. -/
  | reset
  deriving DecidableEq, Repr

/-- The state of one engine. The transient registers ST, KR, BLK and ROUND are "not part of the model's persistent state"
(10_state.md R25), and the round constants are a view of `cfg.sbox` (R26). -/
structure State where
  /-- H, the chaining state (10_state.md R20). -/
  h : Block
  /-- BUF, the filled prefix of the message buffer (10_state.md R21). -/
  buf : List Byte
  /-- POS, the 6-bit fill-position (10_state.md R22). -/
  pos : BitVec 6
  /-- CNT, the Bit-Length Counter (10_state.md R23). -/
  cnt : BitVec 256
  /-- PHASE (10_state.md R24). -/
  phase : Phase
  /-- CMD, written by the host (10_state.md R27). -/
  cmd : BitVec 32
  /-- DATA_IN, written by the host (10_state.md R27). -/
  dataIn : Word
  /-- DATA_OUT, the result word of the latest command (10_state.md R27). -/
  dataOut : Word
  /-- STATUS, the 4-bit completion status of the latest command (10_state.md R27; 30_encoding.md R70). -/
  status : BitVec 4
  /-- The ROM SBOX_TABLE and the other named parameters (10_state.md R26; 00_scope.md R6). -/
  cfg : Config
  /-- What the host has yet to do, the next event first: the model's own field (log 1). -/
  host : List HostEvent
  deriving DecidableEq, Repr

/-- Why the engine stops with a fault: never. It "takes no traps" (60_exceptions.md R306), a rejection is a next state
(R300), and "everything else is deterministic arithmetic with no failure modes" (R315). There is no constructor
(log 20). -/
inductive Fault where
  deriving DecidableEq, Repr

/-- Why a step has no meaning. -/
inductive Refusal where
  /-- Raised by a refused arm of `exec` for an instruction that has no meaning yet; no arm is left refused. Safe. -/
  | notModelled (mnemonic : String)
  /-- Raised by `step` when the configured SBOX is no bijection: "A table that is not a bijection is not a valid
  configuration and must be refused" (40_sbox_and_round_constants.md R103). Safe. -/
  | sboxNotPermutation
  deriving DecidableEq, Repr

/-- What one step or one meaning answers. -/
abbrev Answer := Host.Outcome State Fault Refusal

/-- The complete state of one hash computation, the tuple (H, BUF, POS, CNT, PHASE) of 10_state.md R31. -/
structure Context where
  /-- H. -/
  h : Block
  /-- BUF. -/
  buf : List Byte
  /-- POS. -/
  pos : BitVec 6
  /-- CNT. -/
  cnt : BitVec 256
  /-- PHASE. -/
  phase : Phase
  deriving DecidableEq, Repr

/-- The context of a state (10_state.md R31). -/
def State.context (s : State) : Context :=
  { h := s.h, buf := s.buf, pos := s.pos, cnt := s.cnt, phase := s.phase }

/-- The default configuration: the defaults of 00_scope.md R6 (log 12). -/
def defaultConfig : Config :=
  { sbox := defaultSbox, diffRotation := .right, lengthWindow := .high64, overflowPolicy := .reject }

/-- An engine of configuration cfg right after reset (10_state.md R30; 70_reset_and_hazards.md R400). CMD and DATA_IN are
"host-driven, no value": 0 here (log 2). Nothing is pending from the host (log 1). -/
def State.resetWith (cfg : Config) : State :=
  { h := zeroBlock
    buf := []
    pos := 0
    cnt := 0
    phase := .absorbing
    cmd := 0
    dataIn := 0
    dataOut := 0
    status := 0
    cfg := cfg
    host := [] }

/-- The machine right after reset, with the default parameters. -/
def State.reset : State := State.resetWith defaultConfig

end Sys2Proof.Machine
end

