-- ==== Sys2Proof/Machine/Flags.lean ====
section
/-! DEFINITION. The engine "has no arithmetic flags and no condition codes" (10_state.md R33). What takes their place:
the status codes, and the overflow condition of the Bit-Length Counter. -/

namespace Sys2Proof.Machine

/-- The 4-bit code of a status (30_encoding.md R70). -/
def statusCode : Status → BitVec 4
  | .ok => 0
  | .illegal => 1
  | .finalized => 2
  | .notFinal => 3
  | .counterOverflow => 4

/-- CNT + 8·LEN as an exact integer (43_streaming_absorb.md R160). -/
def counterSum (cnt : BitVec 256) (len : BitVec 4) : Nat := cnt.toNat + 8 * len.toNat

/-- CNT + 8·LEN ≥ 2^256 (43_streaming_absorb.md R161): the carry out of CNT_BYTES[0]. -/
def counterOverflows (cnt : BitVec 256) (len : BitVec 4) : Bool := decide (2 ^ 256 ≤ counterSum cnt len)

/-- The ABSORB is rejected with COUNTER_OVERFLOW (60_exceptions.md R304): it overflows and the policy is REJECT. -/
def counterRejects (cfg : Config) (cnt : BitVec 256) (len : BitVec 4) : Bool :=
  counterOverflows cnt len && cfg.overflowPolicy == .reject

/-- The new CNT: the sum modulo 2^256, which is the sum itself where it does not overflow (43_streaming_absorb.md R161). -/
def counterNext (cnt : BitVec 256) (len : BitVec 4) : BitVec 256 := BitVec.ofNat 256 (counterSum cnt len)

end Sys2Proof.Machine
end

