-- ==== Sys2Proof/Machine/Operands.lean ====
section
/-! DEFINITION. The operands of the commands: the chunk of an ABSORB and the word that an IDX selects
(20_memory.md R42, R43; 30_encoding.md R63, R64). -/

namespace Sys2Proof.Machine

/-- The chunk of an ABSORB: bytes 0..LEN−1 of DATA_IN, most significant first; the other bytes are ignored
(20_memory.md R42). -/
def chunk (len : BitVec 4) (dataIn : Word) : List Byte := (bytesOfWord dataIn).take len.toNat

/-- H[IDX] (44_finalization.md R186). -/
def digestWord (h : Block) (idx : BitVec 3) : Word := h[idx.toNat]'idx.isLt

/-- DIGEST_SIZE, in bytes (10_state.md R28; 45_control_commands.md R201). -/
def digestSize : Word := 64

/-- BLOCK_SIZE, in bytes (10_state.md R28; 45_control_commands.md R201). -/
def blockSize : Word := 64

/-- The constant that the index of a READ_PARAM selects: none for 2..7 (30_encoding.md R64). -/
def paramValue (idx : BitVec 3) : Option Word :=
  if idx = 0 then some digestSize
  else if idx = 1 then some blockSize
  else none

end Sys2Proof.Machine
end

