-- ==== Sys2Proof/Machine/Gf.lean ====
section
/-! DEFINITION. Components 3 and 4 of the engine: the GF(2^8) multiplier and the diffusion layer
(41_gf_multiplier_and_diffusion.md R120 to R125). -/

namespace Sys2Proof.Machine

/-- One left shift of a within a byte, with 0x1D xored in when bit 7 was shifted out: a·x modulo 0x11D
(41_gf_multiplier_and_diffusion.md R120). -/
def gfDouble (a : Byte) : Byte := if a.getLsbD 7 then a <<< 1 ^^^ 0x1D else a <<< 1

/-- n iterations of the loop of 41_gf_multiplier_and_diffusion.md R120 on (a, b, p). -/
def gfMulLoop : Nat → Byte → Byte → Byte → Byte
  | 0, _, _, p => p
  | n + 1, a, b, p => gfMulLoop n (gfDouble a) (b >>> 1) (if b.getLsbD 0 then p ^^^ a else p)

/-- GF_MUL(a, b) (41_gf_multiplier_and_diffusion.md R120): "iterate 8 times". -/
def gfMul (a b : Byte) : Byte := gfMulLoop 8 a b 0

/-- The diffusion coefficients DC (41_gf_multiplier_and_diffusion.md R122). -/
def diffCoeffs : Vector Byte 8 := #v[1, 1, 4, 1, 8, 5, 2, 9]

/-- The matrix entry M[r][k] (41_gf_multiplier_and_diffusion.md R123): subtraction and addition are modulo 8. -/
def diffEntry (rot : DiffRotation) (r k : Fin 8) : Byte :=
  match rot with
  | .right => diffCoeffs[k - r]
  | .left => diffCoeffs[k + r]

/-- The xor of eight bytes. -/
def xorBytes (f : Fin 8 → Byte) : Byte := f 0 ^^^ f 1 ^^^ f 2 ^^^ f 3 ^^^ f 4 ^^^ f 5 ^^^ f 6 ^^^ f 7

/-- DIFFUSE(A) (41_gf_multiplier_and_diffusion.md R124): in every byte column c, output byte r is the xor over k of
M[r][k] times byte c of word k. -/
def diffuse (rot : DiffRotation) (a : Block) : Block :=
  blockOfFn fun r => pack fun c => xorBytes fun k => gfMul (diffEntry rot r k) (byte a[k] c)

end Sys2Proof.Machine
end

