-- ==== Sys2Proof/Machine/Round.lean ====
section
/-! DEFINITION. Components 5 and 6 of the engine: the round transform and the compression function
(42_round_and_compression.md R140 to R147). -/

namespace Sys2Proof.Machine

/-- SUBPERM(A) (42_round_and_compression.md R140): byte j of word i is SBOX of byte j of word (i − j) mod 8. -/
def subPerm (t : Sbox) (a : Block) : Block :=
  blockOfFn fun i => pack fun j => substitute t (byte a[i - j] j)

/-- KEY_ROUND(K, r) (42_round_and_compression.md R141): SUBPERM, then RC[r] xored into word 0 only; no diffusion (R147). -/
def keyRound (t : Sbox) (k : Block) (r : Fin 11) : Block :=
  blockOfFn fun i => if i = 0 then (subPerm t k)[i] ^^^ roundConstant t r else (subPerm t k)[i]

/-- STATE_ROUND(S, K') (42_round_and_compression.md R142): SUBPERM, DIFFUSE, then the new key of this round. -/
def stateRound (cfg : Config) (s k : Block) : Block :=
  xorBlock (diffuse cfg.diffRotation (subPerm cfg.sbox s)) k

/-- The transient registers KR and ST, which live only inside one compression (10_state.md R25). -/
structure RoundRegs where
  /-- KR, the key-schedule register. -/
  kr : Block
  /-- ST, the state register. -/
  st : Block
  deriving DecidableEq, Repr

/-- ROUND (42_round_and_compression.md R143): the key is updated from the old key, the state from the old state and the
NEW key. -/
def roundStep (cfg : Config) (x : RoundRegs) (r : Fin 11) : RoundRegs :=
  { kr := keyRound cfg.sbox x.kr r, st := stateRound cfg x.st (keyRound cfg.sbox x.kr r) }

/-- The round indices 1..10 in order (42_round_and_compression.md R144; 00_scope.md R6, ROUNDS). -/
def roundIndices : List (Fin 11) := [1, 2, 3, 4, 5, 6, 7, 8, 9, 10]

/-- KR and ST after the rounds rs, from KR = H and ST = H ⊕ BLK (42_round_and_compression.md R144). -/
def runRounds (cfg : Config) (rs : List (Fin 11)) (h blk : Block) : RoundRegs :=
  rs.foldl (roundStep cfg) { kr := h, st := xorBlock h blk }

/-- COMPRESS(H, BLK) (42_round_and_compression.md R144): ten rounds, then the feed-forward of H and BLK. -/
def compress (cfg : Config) (h blk : Block) : Block :=
  xorBlock (xorBlock (runRounds cfg roundIndices h blk).st h) blk

/-- H after compressing the first n 64-byte blocks of p in order (42_round_and_compression.md R145). -/
def compressBlocks (cfg : Config) : Nat → List Byte → Block → Block
  | 0, _, h => h
  | n + 1, p, h => compressBlocks cfg n (p.drop 64) (compress cfg h (loadBlock (p.take 64)))

end Sys2Proof.Machine
end

