-- ==== Sys2Proof/Machine/Ops.lean ====
section
/-! DEFINITION. The operations that the commands share: how a command is issued, how it completes, how it is rejected
(the engine's only exception, 60_exceptions.md R300), the reset of the context, and the buffer steps of ABSORB. -/

namespace Sys2Proof.Machine

/-- The configuration is one that the engine may have (40_sbox_and_round_constants.md R103). -/
def configAccepted (cfg : Config) : Bool := sboxIsPermutation cfg.sbox

/-- The host writes CMD and DATA_IN (10_state.md R27), which keep the words (log 3); rest is what it has yet to do. -/
def issued (c : Command) (rest : List HostEvent) (s : State) : State :=
  { s with cmd := c.cmd, dataIn := c.dataIn, host := rest }

/-- The state in which a command ends with STATUS S and DATA_OUT D. -/
def responded (st : Status) (d : Word) (s : State) : State := { s with dataOut := d, status := statusCode st }

/-- `return (OK, D)` (00_scope.md R8). -/
def complete (d : Word) (s : State) : Answer := .next (responded .ok d s)

/-- `reject S` (00_scope.md R8; 60_exceptions.md R300): the context is as it was, STATUS = S and DATA_OUT = 0. It is the
engine's whole exception mechanism: nothing is saved, no mode changes, control goes nowhere, and there is no return
(60_exceptions.md R306, R308). -/
def reject (st : Status) (s : State) : Answer := .next (responded st 0 s)

/-- The context registers take their reset values (10_state.md R30; 45_control_commands.md R200). -/
def clearContext (s : State) : State :=
  { s with h := zeroBlock, buf := [], pos := 0, cnt := 0, phase := .absorbing }

/-- A reset between commands (70_reset_and_hazards.md R400): the context and the response take their reset values, the
ROM and the parameters stay, and CMD and DATA_IN, which are the host's, stay (log 8). -/
def resetEngine (s : State) : State := responded .ok 0 (clearContext s)

/-- BLOCK_FULL() (43_streaming_absorb.md R163). -/
def blockFull (s : State) : State :=
  { s with h := compress s.cfg s.h (loadBlock s.buf), buf := [], pos := 0 }

/-- APPEND_BYTE(x) (43_streaming_absorb.md R162). POS has 6 bits: the 64 that makes the block full is never held
(10_state.md R22). -/
def appendByte (s : State) (x : Byte) : State :=
  if s.pos.toNat + 1 = 64 then blockFull { s with buf := s.buf ++ [x], pos := s.pos + 1 }
  else { s with buf := s.buf ++ [x], pos := s.pos + 1 }

/-- The bytes of a chunk, appended "one at a time" in order (43_streaming_absorb.md R160). -/
def appendBytes (s : State) (bs : List Byte) : State := bs.foldl appendByte s

end Sys2Proof.Machine
end

