-- ==== Sys2Proof/Machine/Absorb.lean ====
section
/-! DEFINITION. Component 7 of the engine: the meaning of ABSORB (43_streaming_absorb.md R160 to R165). -/

namespace Sys2Proof.Machine

/-- What an accepted ABSORB does to the context: CNT first, then the bytes (43_streaming_absorb.md R160, R161). -/
def absorbed (len : BitVec 4) (dataIn : Word) (s : State) : State :=
  appendBytes { s with cnt := counterNext s.cnt len } (chunk len dataIn)

/-- ABSORB (43_streaming_absorb.md R160). The checks stand in the order of 60_exceptions.md R305; the
first is the decoder's, made again for an ill-formed term (log 14). -/
def execAbsorb (len : BitVec 4) (dataIn : Word) (s : State) : Answer :=
  if absorbLenLegal len = false then reject .illegal s
  else if s.phase = .final then reject .finalized s
  else if counterRejects s.cfg s.cnt len then reject .counterOverflow s
  else complete 0 (absorbed len dataIn s)

end Sys2Proof.Machine
end

