-- ==== Sys2Proof/Machine/Control.lean ====
section
/-! DEFINITION. The control commands: the meanings of INIT and READ_PARAM (45_control_commands.md R200, R201). -/

namespace Sys2Proof.Machine

/-- INIT (45_control_commands.md R200): legal in either PHASE. -/
def execInit (s : State) : Answer := complete 0 (clearContext s)

/-- READ_PARAM (45_control_commands.md R201): an index of 2..7 is ILLEGAL (log 14). -/
def execReadParam (idx : BitVec 3) (s : State) : Answer :=
  match paramValue idx with
  | some d => complete d s
  | none => reject .illegal s

end Sys2Proof.Machine
end

