-- ==== Sys2Proof/Machine/Finalize.lean ====
section
/-! DEFINITION. Component 8 of the engine: padding, the length field, and the meanings of FINALIZE and READ_DIGEST
(44_finalization.md R180 to R188). -/

namespace Sys2Proof.Machine

/-- z = (32 − len) mod 64, the number of zero bytes after the 0x80 (44_finalization.md R181): a non-negative remainder
of a difference that may be negative (00_scope.md R7). -/
def padZeros (len : Nat) : Nat := ((32 - (len : Int)) % 64).toNat

/-- PAD(BUF) (44_finalization.md R181). -/
def pad (buf : List Byte) : List Byte :=
  buf ++ [0x80] ++ List.replicate (padZeros (buf.length + 1)) 0x00

/-- v, the 64 counter bits that feed the length field (44_finalization.md R183). -/
def lengthWindowBits (w : LengthWindow) (cnt : BitVec 256) : BitVec 64 :=
  match w with
  | .high64 => cnt.extractLsb' 192 64
  | .low64 => cnt.extractLsb' 0 64

/-- LENGTH_FIELD(CNT) (44_finalization.md R183): zext_256(v) << 3, not truncated to 64 bits, big-endian. The extra shift
is kept as the source has it (R187). -/
def lengthField (w : LengthWindow) (cnt : BitVec 256) : List Byte :=
  bytesOf256 ((lengthWindowBits w cnt).setWidth 256 <<< 3)

/-- The bytes FINALIZE compresses: PAD(BUF) ++ LENGTH_FIELD(CNT) (44_finalization.md R180). -/
def finalBytes (w : LengthWindow) (buf : List Byte) (cnt : BitVec 256) : List Byte :=
  pad buf ++ lengthField w cnt

/-- H after the finalization blocks, compressed in order (44_finalization.md R180). -/
def finalH (s : State) : Block :=
  compressBlocks s.cfg ((finalBytes s.cfg.lengthWindow s.buf s.cnt).length / 64)
    (finalBytes s.cfg.lengthWindow s.buf s.cnt) s.h

/-- What an accepted FINALIZE does to the context; CNT is kept (44_finalization.md R184, R185). -/
def finalized (s : State) : State := { s with h := finalH s, buf := [], pos := 0, phase := .final }

/-- FINALIZE (44_finalization.md R180). -/
def execFinalize (s : State) : Answer :=
  if s.phase = .final then reject .finalized s
  else complete 0 (finalized s)

/-- READ_DIGEST (44_finalization.md R186). -/
def execReadDigest (idx : BitVec 3) (s : State) : Answer :=
  if s.phase = .absorbing then reject .notFinal s
  else complete (digestWord s.h idx) s

end Sys2Proof.Machine
end

