-- ==== Sys2Proof/Machine/Dispatch.lean ====
section
/-! DEFINITION. The dispatch: one arm per command, each one call of its meaning. -/

namespace Sys2Proof.Machine

def exec (i : Instr) (s : State) : Host.Outcome State Fault Refusal :=
  match i with
  | .init => Sys2Proof.Machine.execInit s
  | .absorb len dataIn => Sys2Proof.Machine.execAbsorb len dataIn s
  | .finalize => Sys2Proof.Machine.execFinalize s
  | .readDigest idx => Sys2Proof.Machine.execReadDigest idx s
  | .readParam idx => Sys2Proof.Machine.execReadParam idx s

end Sys2Proof.Machine
end

