-- ==== Sys2Proof/Machine/Port.lean ====
section
/-! DEFINITION. The command port (10_state.md R27): running the command whose words CMD and DATA_IN hold, and taking the
host's next event. -/

namespace Sys2Proof.Machine

/-- The command on the port is run: an illegal word is rejected with ILLEGAL (60_exceptions.md R301), a legal one has
the meaning of its command. -/
def runCommand (s : State) : Answer :=
  match decode ⟨s.cmd, s.dataIn⟩ with
  | .ok i => exec i s
  | .error _ => reject .illegal s

/-- The host's next event. With none pending "the engine holds its context unchanged indefinitely" (60_exceptions.md
R313). A reset between commands takes effect before the next command (70_reset_and_hazards.md R400). A command is issued
and runs to completion. -/
def takeEvent (s : State) : Answer :=
  match s.host with
  | [] => .next s
  | .reset :: rest => .next (resetEngine { s with host := rest })
  | .command c :: rest => runCommand (issued c rest s)

end Sys2Proof.Machine
end

