-- ==== Sys2Proof/Machine/Step.lean ====
section
/-! DEFINITION. One step of the engine: the host's next event, taken whole (00_scope.md R9; 20_memory.md R48). -/

namespace Sys2Proof.Machine

/-- One step. A configuration whose SBOX is no bijection is refused (40_sbox_and_round_constants.md R103). -/
def step (s : State) : Host.Outcome State Fault Refusal :=
  if configAccepted s.cfg then takeEvent s else .refused .sboxNotPermutation

/-- s with the instruction whose bits are w issued next by the host, before what it had yet to do: CMD is bits 31..0,
DATA_IN bits 95..32, and bits at and above nbits are 0. The engine fetches nothing (10_state.md R32): the host's next
command is where the next step takes its instruction from. -/
def State.withFetchWord (s : State) (nbits w : Nat) : State :=
  { s with host := .command (commandOfTableWord nbits w) :: s.host }

end Sys2Proof.Machine
end

