-- ==== Sys2Proof/Machine/Iso.lean ====
section
/-! DEFINITION. ISO Whirlpool, which this engine is NOT (44_finalization.md R188; 00_scope.md R1): the spec's own functions with
the three changes of 95_test_vectors.md section 1.2, which that section takes from general knowledge. No meaning uses it; it is
what the claims of R188 compare the engine with (log 22). -/

namespace Sys2Proof.Machine

/-- θ of ISO Whirlpool: "multiplies each word's 8 bytes by the circulant", row-wise (95_test_vectors.md section 1.2). -/
def isoTheta (a : Block) : Block :=
  blockOfFn fun r => pack fun c => xorBytes fun k => gfMul (diffEntry .right k c) (byte a[r] k)

/-- The ISO key round, K' = θ(SUBPERM(K)) ⊕ RC: the key "also applies the diffusion". -/
def isoKeyRound (k : Block) (r : Fin 11) : Block :=
  blockOfFn fun i =>
    if i = 0 then (isoTheta (subPerm defaultSbox k))[i] ^^^ roundConstant defaultSbox r
    else (isoTheta (subPerm defaultSbox k))[i]

/-- One ISO round of both registers. -/
def isoRoundStep (x : RoundRegs) (r : Fin 11) : RoundRegs :=
  { kr := isoKeyRound x.kr r, st := xorBlock (isoTheta (subPerm defaultSbox x.st)) (isoKeyRound x.kr r) }

/-- The ISO compression: the rounds and the feed-forward are the engine's (42_round_and_compression.md R144). -/
def isoCompress (h blk : Block) : Block :=
  xorBlock (xorBlock (roundIndices.foldl isoRoundStep { kr := h, st := xorBlock h blk }).st h) blk

/-- The first n 64-byte blocks of p, compressed in order. -/
def isoCompressBlocks : Nat → List Byte → Block → Block
  | 0, _, h => h
  | n + 1, p, h => isoCompressBlocks n (p.drop 64) (isoCompress h (loadBlock (p.take 64)))

/-- The ISO padding of a message: "the length field is the exact bit count, 256 bits big-endian". -/
def isoPadded (m : List Byte) : List Byte := pad m ++ bytesOf256 (BitVec.ofNat 256 (8 * m.length))

/-- The ISO digest of a message, as eight words. -/
def isoDigest (m : List Byte) : Block := isoCompressBlocks ((isoPadded m).length / 64) (isoPadded m) zeroBlock

end Sys2Proof.Machine
end

