-- ==== Sys2Proof/Machine/Asm.lean ====
section
/-! DEFINITION. What stands on the host's side of the port: the assembler (30_encoding.md R68) and the pseudo-instructions
(R69). Where R68 leaves the text's layout open, the model's choice is log 17. -/

namespace Sys2Proof.Machine

/-- A piece of an assembler line. -/
inductive Token where
  /-- A mnemonic or a number. -/
  | word (w : List Char)
  /-- The comma between the operands of absorb. -/
  | comma
  deriving DecidableEq, Repr

/-- The word read so far, when there is one. -/
def flushWord (cur : List Char) : List Token := if cur = [] then [] else [.word cur]

/-- The tokens of a line: `;` starts a comment (30_encoding.md R68), wherever it stands in the line.
DESIGN CHOICE (log 17), since R68 does not say which characters separate words: a space, a horizontal tab and a carriage
return do, each anywhere in a line and in any number; a comma is a token of its own, with or without them around it; every
other character, a line feed among them, is part of a word. -/
def tokenize : List Char → List Char → List Token
  | [], cur => flushWord cur
  | c :: cs, cur =>
    if c = ';' then flushWord cur
    else if c = ',' then flushWord cur ++ .comma :: tokenize cs []
    else if c = ' ' ∨ c = '\t' ∨ c = '\r' then flushWord cur ++ tokenize cs []
    else tokenize cs (cur ++ [c])

/-- The value of a digit. DESIGN CHOICE (log 17): the digits a to f may be of either case. -/
def digitValue (c : Char) : Option Nat :=
  if '0' ≤ c ∧ c ≤ '9' then some (c.toNat - '0'.toNat)
  else if 'a' ≤ c ∧ c ≤ 'f' then some (c.toNat - 'a'.toNat + 10)
  else if 'A' ≤ c ∧ c ≤ 'F' then some (c.toNat - 'A'.toNat + 10)
  else none

/-- The digits ds in the given base, after the value acc. -/
def parseDigits (base : Nat) : List Char → Nat → Option Nat
  | [], acc => some acc
  | c :: cs, acc =>
    match digitValue c with
    | some d => if d < base then parseDigits base cs (acc * base + d) else none
    | none => none

/-- "Numbers are decimal or 0x-prefixed hexadecimal" (30_encoding.md R68). DESIGN CHOICE (log 17): the prefix is in small
letters with at least one digit after it, leading zeros are read as zeros, and there is no sign and no separator of digits. -/
def parseNumber : List Char → Option Nat
  | [] => none
  | '0' :: 'x' :: d :: ds => parseDigits 16 (d :: ds) 0
  | ds => parseDigits 10 ds 0

/-- A number that fits in bits. DESIGN CHOICE (log 17): one that does not fit is refused, not cut. -/
def parseField (bits : Nat) (w : List Char) : Option (BitVec bits) :=
  match parseNumber w with
  | some n => if n < 2 ^ bits then some (BitVec.ofNat bits n) else none
  | none => none

/-- The words of one line (30_encoding.md R68).
DESIGN CHOICE (log 17): a line without a token (empty, separators or a comment only) has none; mnemonics are in small letters
as the table shows them; a line outside the syntax is refused; LEN may be any 4-bit and IDX any 3-bit value, as R68 gives
their words, whether or not the engine then finds them legal.
DESIGN CHOICE (log 21): a pseudo-instruction of R69 is no line of the text, so `digest` alone is refused like any other word. -/
def assembleLine (line : List Char) : Option (List Command) :=
  match tokenize line [] with
  | [] => some []
  | [.word w] =>
    if w = "init".toList then some [encode .init]
    else if w = "finalize".toList then some [encode .finalize]
    else none
  | [.word w, .word n] =>
    if w = "read_digest".toList then (parseField 3 n).map fun idx => [encode (.readDigest idx)]
    else if w = "read_param".toList then (parseField 3 n).map fun idx => [encode (.readParam idx)]
    else none
  | [.word w, .word n, .comma, .word d] =>
    if w = "absorb".toList then
      match parseField 4 n, parseField 64 d with
      | some len, some dataIn => some [encode (.absorb len dataIn)]
      | _, _ => none
    else none
  | _ => none

/-- "A binary program is a sequence of (CMD, DATA_IN) pairs issued in order", one command per line (30_encoding.md R68).
DESIGN CHOICE (log 17): a text is given as its list of lines, already cut, and one refused line refuses the whole text. -/
def assemble : List (List Char) → Option (List Command)
  | [] => some []
  | line :: lines =>
    match assembleLine line, assemble lines with
    | some c, some cs => some (c ++ cs)
    | _, _ => none

/-- pack of a chunk of at most 8 bytes, zeros after it (30_encoding.md R69). -/
def packChunk (m : List Byte) : Word := pack fun j => m.getD j.val 0

/-- The lines of absorb_bytes for a byte string of at most 8·n bytes: full chunks of 8, then the rest (30_encoding.md R69). -/
def absorbChunks : Nat → List Byte → List Instr
  | 0, _ => []
  | n + 1, m =>
    if m = [] then []
    else .absorb (BitVec.ofNat 4 (m.take 8).length) (packChunk (m.take 8)) :: absorbChunks n (m.drop 8)

/-! The pseudo-instructions. R69 gives their expansions and no text form of a byte string: they expand as lists of
commands (log 21). -/

/-- absorb_bytes s: "For n = 0 it expands to absorb 0, 0" (30_encoding.md R69). -/
def absorbBytes (m : List Byte) : List Instr :=
  if m = [] then [.absorb 0 0] else absorbChunks m.length m

/-- digest: finalize, then read_digest 0 … read_digest 7 (30_encoding.md R69). -/
def digestCommands : List Instr :=
  [.finalize, .readDigest 0, .readDigest 1, .readDigest 2, .readDigest 3, .readDigest 4, .readDigest 5, .readDigest 6,
   .readDigest 7]

/-- hash s: init, absorb_bytes s, digest (30_encoding.md R69). -/
def hashCommands (m : List Byte) : List Instr := .init :: (absorbBytes m ++ digestCommands)

/-- The host issues the commands is, in order. -/
def hostProgram (is : List Instr) : List HostEvent := is.map fun i => .command (encode i)

end Sys2Proof.Machine
end

