-- ==== Sys2Proof/Machine/Reference.lean ====
section
/-! DEFINITION. Second descriptions that the spec gives beside the commands, in which claims are stated: the byte-serial
counter (43_streaming_absorb.md R161), the priority of statuses (60_exceptions.md R305), and the digest of a whole
message. No meaning uses them. -/

namespace Sys2Proof.Machine

/-- A byte-wise add of c into a number whose bytes are listed least significant first, with the carry handed on from byte
to byte: the bytes of the sum and the carry out (43_streaming_absorb.md R161; 20_memory.md R44). -/
def addBytesCarry : List Byte → Nat → List Byte × Nat
  | [], c => ([], c)
  | b :: bs, c =>
    (BitVec.ofNat 8 (b.toNat + c) :: (addBytesCarry bs ((b.toNat + c) / 256)).1,
      (addBytesCarry bs ((b.toNat + c) / 256)).2)

/-- The number that a list of bytes writes big-endian (20_memory.md R44, R45). -/
def bigEndianValue (bs : List Byte) : Nat := bs.foldl (fun n b => 256 * n + b.toNat) 0

/-- The one status that a command reports in a state: the first condition of 60_exceptions.md R305 that applies. -/
def priorityStatus (c : Command) (s : State) : Status :=
  if illegalWord c.cmd then .illegal
  else if (fieldOp c.cmd = 0x2#4 ∨ fieldOp c.cmd = 0x3#4) ∧ s.phase = .final then .finalized
  else if fieldOp c.cmd = 0x4#4 ∧ s.phase = .absorbing then .notFinal
  else if fieldOp c.cmd = 0x2#4 ∧ s.cfg.overflowPolicy = .reject ∧ 2 ^ 256 ≤ s.cnt.toNat + 8 * (fieldLen c.cmd).toNat then
    .counterOverflow
  else .ok

/-- The digest of a whole message at once: the padded message with the length field of its bit count, compressed block by
block from the zero chaining state. The engine computes it command by command (43_streaming_absorb.md R164). -/
def bulkDigest (cfg : Config) (m : List Byte) : Block :=
  compressBlocks cfg ((finalBytes cfg.lengthWindow m (BitVec.ofNat 256 (8 * m.length))).length / 64)
    (finalBytes cfg.lengthWindow m (BitVec.ofNat 256 (8 * m.length))) zeroBlock

end Sys2Proof.Machine
end

