-- ==== Sys2Proof/Safety.lean ====
section
/-! DEFINITION. The terms in which claims are stated: the invariant of the engine, what the host observes, and runs of
commands. -/

namespace Sys2Proof.Machine

/-- The invariant that every step keeps. -/
structure State.Inv (s : State) : Prop where
  /-- SBOX is a bijection (40_sbox_and_round_constants.md R103). -/
  sboxPermutation : configAccepted s.cfg = true
  /-- POS = len(BUF) (10_state.md R22); POS has 6 bits, so BUF has at most 63 bytes (R21). -/
  posIsLength : s.pos.toNat = s.buf.length
  /-- While absorbing, the buffer holds the bytes since the last full block: CNT ≡ 8·POS modulo 512. -/
  countMatches : s.phase = .absorbing → s.cnt.toNat % 512 = 8 * s.buf.length
  /-- In PHASE = FINAL the buffer is empty (44_finalization.md R185). -/
  finalEmpty : s.phase = .final → s.buf = []
  /-- STATUS is one of the five codes: "5–15 … never produced" (30_encoding.md R70). -/
  statusProduced : ∃ st : Status, s.status = statusCode st
  /-- A rejected command has DATA_OUT = 0 (60_exceptions.md R300). -/
  rejectedZero : s.status ≠ statusCode .ok → s.dataOut = 0

/-- What the host reads after a step: (STATUS, DATA_OUT) (30_encoding.md R68). -/
def State.response (s : State) : BitVec 4 × Word := (s.status, s.dataOut)

/-- The responses of k steps from s, in order, up to the first step that answers no next state. DESIGN CHOICE (log 18): a
step without a command has an entry too. After a reset it is (OK, 0), and an idle step repeats the response that stands,
a rejection among them. -/
def observe : Nat → State → List (BitVec 4 × Word)
  | 0, _ => []
  | k + 1, s =>
    match step s with
    | .next t => t.response :: observe k t
    | .fault _ => []
    | .refused _ => []

/-- The commands is, run one after the other. -/
def execAll : List Instr → State → Answer
  | [], s => .next s
  | i :: is, s =>
    match exec i s with
    | .next t => execAll is t
    | .fault r => .fault r
    | .refused r => .refused r

/-- A safe run of k steps: it reaches a next state, and STATUS is OK after each (60_exceptions.md R314), so that no command
in it was rejected. DESIGN CHOICE (log 18): an idle step after an earlier rejection, whose STATUS still stands, makes the run
not safe. -/
def State.SafeRun (k : Nat) (s : State) : Prop :=
  (∃ t : State, Host.Core.run Sys2Proof.core k s = .next t) ∧ ∀ r ∈ observe k s, r.1 = statusCode .ok

end Sys2Proof.Machine
end

