-- ==== Sys2Proof/Certificates/Slice0/Obligations.lean ====
section
/-! DEFINITION. The statements for the provers: what the rules of spec/ say of the engine, over the model. Statements about
`step` take the host's next event from the model's own field `host` (log 1). -/

open Sys2Proof Sys2Proof.Machine

/-! ### Reset and the control commands -/

/-- 70_reset_and_hazards.md R400: a reset between commands sets H, BUF, POS, CNT, PHASE, DATA_OUT and STATUS to their
reset values, leaves the ROM, and leaves the host's later commands to come after it. That a reset is an event in `host`
and that it keeps CMD and DATA_IN is the model's choice (log 1, log 8). -/
def Obligations.ResetEventSetsResetValues : Prop :=
  ∀ (s : State) (rest : List HostEvent), configAccepted s.cfg = true → s.host = .reset :: rest →
    ∃ t, step s = .next t ∧ t.h = #v[0, 0, 0, 0, 0, 0, 0, 0] ∧ t.buf = [] ∧ t.pos = 0 ∧ t.cnt = 0 ∧
      t.phase = .absorbing ∧ t.dataOut = 0 ∧ t.status = 0 ∧ t.cfg = s.cfg ∧ t.host = rest ∧
      t.cmd = s.cmd ∧ t.dataIn = s.dataIn

/-- 45_control_commands.md R200: INIT completes in every state, whatever its PHASE, with (OK, 0) and the reset values in
the context; nothing else changes. A word on the port with OP = 0x1 other than 0x10000000 is rejected with ILLEGAL. -/
def Obligations.InitStartsNewComputation : Prop :=
  (∀ s : State, exec .init s =
    .next { s with h := #v[0, 0, 0, 0, 0, 0, 0, 0], buf := [], pos := 0, cnt := 0, phase := .absorbing,
                   dataOut := 0, status := 0 }) ∧
  (∀ s : State, s.cmd.extractLsb' 28 4 = 0x1#4 → s.cmd ≠ 0x10000000#32 →
    runCommand s = .next { s with dataOut := 0, status := 1 })

/-- 70_reset_and_hazards.md R401, an inference of the spec: the state after a reset (context, response, ROM) is the
state after a successful INIT. That a reset is an event in `host` is the model's choice (log 1). -/
def Obligations.ResetEqualsInit : Prop :=
  ∀ (s u : State) (rest : List HostEvent), configAccepted s.cfg = true → s.host = .reset :: rest → u.cfg = s.cfg →
    ∃ t v, step s = .next t ∧ exec .init u = .next v ∧ t.context = v.context ∧ t.response = v.response ∧ t.cfg = v.cfg

/-- 45_control_commands.md R201: READ_PARAM 0 and 1 return (OK, 64) in either PHASE, a word on the port with OP = 0x5
that is neither is rejected with ILLEGAL, index 2..7 among them, and neither writes any other state. -/
def Obligations.ReadParamReturnsSizes : Prop :=
  (∀ (s : State) (idx : BitVec 3), idx = 0 ∨ idx = 1 →
    exec (.readParam idx) s = .next { s with dataOut := 64, status := 0 }) ∧
  (∀ (s : State) (idx : BitVec 3), idx ≠ 0 → idx ≠ 1 →
    exec (.readParam idx) s = .next { s with dataOut := 0, status := 1 }) ∧
  (∀ s : State, s.cmd.extractLsb' 28 4 = 0x5#4 → s.cmd ≠ 0x50000000#32 → s.cmd ≠ 0x50000001#32 →
    runCommand s = .next { s with dataOut := 0, status := 1 })

/-! ### Reading the digest -/

/-- 44_finalization.md R186 and 60_exceptions.md R303: READ_DIGEST returns (OK, H[IDX]) in PHASE = FINAL and is rejected
with NOT_FINAL in PHASE = ABSORBING, without finalizing; no other state is written. A word on the port with OP = 0x4
that is no READ_DIGEST is rejected with ILLEGAL. -/
def Obligations.ReadDigestReturnsWord : Prop :=
  (∀ (s : State) (idx : BitVec 3), s.phase = .final →
    exec (.readDigest idx) s = .next { s with dataOut := s.h[idx.toNat]'idx.isLt, status := 0 }) ∧
  (∀ (s : State) (idx : BitVec 3), s.phase = .absorbing →
    exec (.readDigest idx) s = .next { s with dataOut := 0, status := 3 }) ∧
  (∀ s : State, s.cmd.extractLsb' 28 4 = 0x4#4 → s.cmd &&& 0xFFFFFFF8#32 ≠ 0x40000000#32 →
    runCommand s = .next { s with dataOut := 0, status := 1 })

/-- 20_memory.md R43: the digest is 64 bytes, byte 8i+j is byte(H[i], j), and it is bits 63−8j..56−8j of the DATA_OUT
that READ_DIGEST i returns. -/
def Obligations.DigestBytesAreBigEndian : Prop :=
  ∀ (s : State) (i j : Fin 8), s.phase = .final →
    (digestBytes s.h).length = 64 ∧
    (digestBytes s.h)[8 * i.val + j.val]? = some (byte s.h[i] j) ∧
    ∃ t, exec (.readDigest (BitVec.ofFin i)) s = .next t ∧
      t.dataOut.extractLsb' (56 - 8 * j.val) 8 = byte s.h[i] j

/-- 20_memory.md R48: READ_DIGEST and READ_PARAM complete, change nothing but the response, and repeat with the same
response. -/
def Obligations.ReadsHaveNoSideEffect : Prop :=
  ∀ (s : State) (i : Instr), ((∃ idx, i = .readDigest idx) ∨ ∃ idx, i = .readParam idx) →
    ∃ t, exec i s = .next t ∧ t = { s with dataOut := t.dataOut, status := t.status } ∧ exec i t = .next t

/-! ### ABSORB -/

/-- 43_streaming_absorb.md R160: the whole of ABSORB, in every state whose POS is len(BUF). The three rejections in
their order leave everything but the response as it was; an accepted ABSORB adds 8·LEN to CNT, appends its chunk,
compresses the full block once when 64 bytes are reached, and returns (OK, 0). A word on the port with OP = 0x2 that is
no ABSORB is rejected with ILLEGAL. -/
def Obligations.AbsorbAppendsChunk : Prop :=
  (∀ s : State, s.cmd.extractLsb' 28 4 = 0x2#4 →
    s.cmd &&& 0xF0FFFFFF#32 ≠ 0x20000000#32 ∨ 8 < (s.cmd.extractLsb' 24 4).toNat →
    runCommand s = .next { s with dataOut := 0, status := 1 }) ∧
  ∀ (s : State) (len : BitVec 4) (d : Word), s.pos.toNat = s.buf.length →
    exec (.absorb len d) s =
      if 8 < len.toNat then .next { s with dataOut := 0, status := 1 }
      else if s.phase = .final then .next { s with dataOut := 0, status := 2 }
      else if 2 ^ 256 ≤ s.cnt.toNat + 8 * len.toNat ∧ s.cfg.overflowPolicy = .reject then
        .next { s with dataOut := 0, status := 4 }
      else if s.buf.length + len.toNat < 64 then
        .next { s with
          cnt := BitVec.ofNat 256 ((s.cnt.toNat + 8 * len.toNat) % 2 ^ 256)
          buf := s.buf ++ (bytesOfWord d).take len.toNat
          pos := BitVec.ofNat 6 (s.buf.length + len.toNat)
          dataOut := 0, status := 0 }
      else
        .next { s with
          cnt := BitVec.ofNat 256 ((s.cnt.toNat + 8 * len.toNat) % 2 ^ 256)
          h := compress s.cfg s.h (loadBlock ((s.buf ++ (bytesOfWord d).take len.toNat).take 64))
          buf := (s.buf ++ (bytesOfWord d).take len.toNat).drop 64
          pos := BitVec.ofNat 6 (s.buf.length + len.toNat - 64)
          dataOut := 0, status := 0 }

/-- 43_streaming_absorb.md R160, example: from reset, `absorb 3, 0x6162630000000000`. -/
def Obligations.AbsorbExampleAbc : Prop :=
  exec (.absorb 3 0x6162630000000000) State.reset =
    .next { State.reset with cnt := 24, buf := [0x61, 0x62, 0x63], pos := 3 }

/-- 20_memory.md R42: byte t of the chunk is DATA_IN[63−8t : 56−8t], in order, and the bytes t = LEN..7 are ignored: two
operands that agree on the first LEN bytes have one effect. -/
def Obligations.AbsorbTakesLeadingBytes : Prop :=
  (∀ (len : BitVec 4) (d : Word) (t : Nat), len.toNat ≤ 8 →
    (chunk len d)[t]? = if t < len.toNat then some (d.extractLsb' (56 - 8 * t) 8) else none) ∧
  (∀ (s : State) (len : BitVec 4) (d e : Word),
    (∀ t, t < len.toNat → t < 8 → d.extractLsb' (56 - 8 * t) 8 = e.extractLsb' (56 - 8 * t) 8) →
    exec (.absorb len d) s = exec (.absorb len e) s)

/-- 43_streaming_absorb.md R165, an inference of the spec from R160: an ABSORB with LEN = 0 changes nothing and returns
OK in PHASE = ABSORBING, whatever CNT and the policy are, and is rejected with FINALIZED in PHASE = FINAL. -/
def Obligations.EmptyAbsorbIsNoOp : Prop :=
  ∀ (s : State) (d : Word),
    (s.phase = .absorbing → exec (.absorb 0 d) s = .next { s with dataOut := 0, status := 0 }) ∧
    (s.phase = .final → exec (.absorb 0 d) s = .next { s with dataOut := 0, status := 2 })

/-- 60_exceptions.md R304: with CNT + 8·LEN ≥ 2^256 an ABSORB is rejected with COUNTER_OVERFLOW under REJECT, and under
WRAP it completes with CNT the sum modulo 2^256; under WRAP no ABSORB reports COUNTER_OVERFLOW. -/
def Obligations.CounterOverflowFollowsPolicy : Prop :=
  (∀ (s : State) (len : BitVec 4) (d : Word), len.toNat ≤ 8 → s.phase = .absorbing →
    2 ^ 256 ≤ s.cnt.toNat + 8 * len.toNat →
    (s.cfg.overflowPolicy = .reject → exec (.absorb len d) s = .next { s with dataOut := 0, status := 4 }) ∧
    (s.cfg.overflowPolicy = .wrap → ∃ t, exec (.absorb len d) s = .next t ∧ t.status = 0 ∧ t.dataOut = 0 ∧
      t.cnt.toNat + 2 ^ 256 = s.cnt.toNat + 8 * len.toNat)) ∧
  (∀ (s t : State) (len : BitVec 4) (d : Word), s.cfg.overflowPolicy = .wrap →
    exec (.absorb len d) s = .next t → t.status ≠ 4)

/-- 20_memory.md R44 and 43_streaming_absorb.md R161: CNT_BYTES[i] is bits 255−8i..248−8i of CNT, and adding 8·LEN byte
by byte, with the carry from CNT_BYTES[31] towards CNT_BYTES[0], gives the bytes of the CNT that ABSORB writes; the
carry out of CNT_BYTES[0] is the overflow. That the byte-serial add agrees with the integer sum is an inference of the
spec, in R161 from R44. -/
def Obligations.ByteSerialCounterAgrees : Prop :=
  ∀ (cnt : BitVec 256) (len : BitVec 4),
    (bytesOf256 cnt).length = 32 ∧
    (∀ i, i < 32 → (bytesOf256 cnt)[i]? = some (cnt.extractLsb' (248 - 8 * i) 8)) ∧
    (addBytesCarry (bytesOf256 cnt).reverse (8 * len.toNat)).1.reverse = bytesOf256 (counterNext cnt len) ∧
    ((addBytesCarry (bytesOf256 cnt).reverse (8 * len.toNat)).2 = 0 ↔ counterOverflows cnt len = false)

/-- 43_streaming_absorb.md R164, an inference of the spec: two sequences of ABSORB commands whose chunks concatenate to
the same bytes, issued from one state in PHASE = ABSORBING, both complete and end in the same context, with CNT grown by
8 for every byte, provided that the total does not overflow. -/
def Obligations.ChunkSplitDoesNotMatter : Prop :=
  ∀ (s : State) (xs ys : List (BitVec 4 × Word)), s.phase = .absorbing →
    (∀ x ∈ xs, x.1.toNat ≤ 8) → (∀ y ∈ ys, y.1.toNat ≤ 8) →
    xs.flatMap (fun x => chunk x.1 x.2) = ys.flatMap (fun y => chunk y.1 y.2) →
    s.cnt.toNat + 8 * (xs.flatMap fun x => chunk x.1 x.2).length < 2 ^ 256 →
    ∃ t u, execAll (xs.map fun x => .absorb x.1 x.2) s = .next t ∧
      execAll (ys.map fun y => .absorb y.1 y.2) s = .next u ∧ t.context = u.context ∧
      t.cnt.toNat = s.cnt.toNat + 8 * (xs.flatMap fun x => chunk x.1 x.2).length

/-! ### FINALIZE -/

/-- 44_finalization.md R180: the whole of FINALIZE, in every state whose POS is len(BUF). In PHASE = FINAL it is
rejected with FINALIZED. Otherwise it compresses one block when POS ≤ 31 and two when POS ≥ 32, empties BUF, keeps CNT,
sets PHASE = FINAL and returns (OK, 0). A word on the port with OP = 0x3 other than 0x30000000 is rejected with ILLEGAL.
-/
def Obligations.FinalizeCompressesPaddedBlocks : Prop :=
  (∀ s : State, s.cmd.extractLsb' 28 4 = 0x3#4 → s.cmd ≠ 0x30000000#32 →
    runCommand s = .next { s with dataOut := 0, status := 1 }) ∧
  ∀ s : State, s.pos.toNat = s.buf.length →
    exec .finalize s =
      if s.phase = .final then .next { s with dataOut := 0, status := 2 }
      else if s.buf.length ≤ 31 then
        .next { s with
          h := compress s.cfg s.h (loadBlock (s.buf ++ 0x80#8 :: List.replicate (31 - s.buf.length) 0#8 ++
            lengthField s.cfg.lengthWindow s.cnt))
          buf := [], pos := 0, phase := .final, dataOut := 0, status := 0 }
      else
        .next { s with
          h := compress s.cfg
            (compress s.cfg s.h (loadBlock (s.buf ++ 0x80#8 :: List.replicate (63 - s.buf.length) 0#8)))
            (loadBlock (List.replicate 32 0#8 ++ lengthField s.cfg.lengthWindow s.cnt))
          buf := [], pos := 0, phase := .final, dataOut := 0, status := 0 }

/-- 44_finalization.md R181: PAD appends 0x80 and then as many zeros as make the length congruent to 32 modulo 64, fewer
than 64 of them. It holds of a list of any length. -/
def Obligations.PadEndsAtThirtyTwo : Prop :=
  ∀ buf : List Byte, ∃ z, z < 64 ∧ pad buf = buf ++ [0x80#8] ++ List.replicate z 0#8 ∧ (pad buf).length % 64 = 32

/-- 44_finalization.md R182, an inference of the spec from R181: z and the number of blocks depend only on POS: 31 − POS
and one block for POS in 0..31, 95 − POS and two blocks for POS in 32..63. -/
def Obligations.BlockCountDependsOnPos : Prop :=
  ∀ (w : LengthWindow) (buf : List Byte) (cnt : BitVec 256),
    (buf.length ≤ 31 → padZeros (buf.length + 1) = 31 - buf.length ∧ (finalBytes w buf cnt).length = 64) ∧
    (32 ≤ buf.length → buf.length ≤ 63 →
      padZeros (buf.length + 1) = 95 - buf.length ∧ (finalBytes w buf cnt).length = 128)

/-- 44_finalization.md R183 and 20_memory.md R45: the length field is 32 bytes whose big-endian value is 8·v, v being
CNT[255:192] under HIGH64 and CNT[63:0] under LOW64; nothing is cut off, and it is bytes 32..63 of the last finalization
block. -/
def Obligations.LengthFieldHoldsEightTimesWindow : Prop :=
  ∀ (w : LengthWindow) (cnt : BitVec 256),
    (lengthField w cnt).length = 32 ∧
    (bigEndianValue (lengthField w cnt) =
      match w with
      | .high64 => cnt.toNat / 2 ^ 192 * 8
      | .low64 => cnt.toNat % 2 ^ 64 * 8) ∧
    ∀ buf : List Byte, ∃ n, (finalBytes w buf cnt).length = 64 * (n + 1) ∧
      (finalBytes w buf cnt).drop (64 * n + 32) = lengthField w cnt

/-- 44_finalization.md R180, example: from reset, FINALIZE leaves the digest of the empty message, under the default
parameters. -/
def Obligations.EmptyMessageDigest : Prop :=
  exec .finalize State.reset = .next { State.reset with
    h := #v[0xb9fa90044a6c2279, 0x73b862ec61a8a6a4, 0x8919ba65acd44051, 0xc608d6e4d3e5d2d1,
            0x2c2219e176f54ce4, 0x42f9428a06b939af, 0xd048d1924bd32bca, 0x3f501bd5e5b50b90]
    phase := .final }

/-! ### The datapath -/

/-- 20_memory.md R41: LOAD_BLOCK is big-endian: byte j of word i is byte 8i+j, and the digest order of R43 gives the 64
bytes back. -/
def Obligations.LoadBlockIsBigEndian : Prop :=
  ∀ b : List Byte, b.length = 64 →
    (∀ i j : Fin 8, b[8 * i.val + j.val]? = some (byte (loadBlock b)[i] j)) ∧ digestBytes (loadBlock b) = b

/-- 40_sbox_and_round_constants.md R102: the default table is the one the mini-boxes generate. -/
def Obligations.DefaultSboxIsGenerated : Prop :=
  ∀ x : Byte, substitute defaultSbox x = generatedSbox x

/-- 40_sbox_and_round_constants.md R103: an engine whose table is no bijection "must be refused", and that it is step
that refuses it is the model's choice (log 6). step refuses, by name, exactly the configurations whose substitution is
no bijection on bytes; the default is a bijection. -/
def Obligations.NonBijectiveSboxRefused : Prop :=
  (∀ s : State, step s = .refused .sboxNotPermutation ↔ ¬ Function.Bijective (substitute s.cfg.sbox)) ∧
  Function.Bijective (substitute defaultSbox)

/-- 40_sbox_and_round_constants.md R104: RC[r] holds the eight table entries from 8(r−1), the first in the most
significant byte, under every table; RC[0] is 0. -/
def Obligations.RoundConstantsPackTable : Prop :=
  ∀ t : Sbox, roundConstant t 0 = 0 ∧
    ∀ (r : Fin 11) (i : Fin 8), r ≠ 0 →
      (roundConstant t r).extractLsb' (56 - 8 * i.val) 8 = substitute t (BitVec.ofNat 8 (8 * (r.val - 1) + i.val))

/-- 40_sbox_and_round_constants.md R105, an inference of the spec from R101 and R104: the ten constants under the
default table. -/
def Obligations.DefaultRoundConstants : Prop :=
  ([1, 2, 3, 4, 5, 6, 7, 8, 9, 10] : List (Fin 11)).map (roundConstant defaultSbox) =
    [0x1823c6e887b8014f, 0x36a6d2f5796f9152, 0x60bc9b8ea30c7b35, 0x1de0d7c22e4bfe57, 0x157737e59ff04ada,
     0x58c9290ab1a06b85, 0xbd5d10f4cb3e0567, 0xe427418ba77d95d8, 0xfbee7c66dd17479e, 0xca2dbf07ad5a8333]

/-- 41_gf_multiplier_and_diffusion.md R120: the corner cases and the example of GF_MUL. -/
def Obligations.GfMulExamples : Prop :=
  gfMul 0x02 0x80 = 0x1D ∧ gfMul 0xFF 0xFF = 0xE2 ∧ gfMul 0x53 0xCA = 0x8F

/-- 41_gf_multiplier_and_diffusion.md R121, an inference of the spec from R120: GF_MUL is the multiplication of
GF(2)[x]/(x^8+x^4+x^3+x^2+1). Reading a byte as the polynomial of its bits, at the root of the reduction polynomial,
turns xor into the sum and GF_MUL into the product of that quotient ring, and no two bytes are read alike; and so GF_MUL
is commutative, associative and distributive, with identity 1 and absorbing element 0. -/
def Obligations.GfMulIsFieldMultiplication : Prop :=
  (∃ φ : Byte → AdjoinRoot (Polynomial.X ^ 8 + Polynomial.X ^ 4 + Polynomial.X ^ 3 + Polynomial.X ^ 2 + 1 :
      Polynomial (ZMod 2)),
    Function.Injective φ ∧
    (∀ a, φ a = ∑ i : Fin 8, if a.getLsbD i.val then AdjoinRoot.root _ ^ i.val else 0) ∧
    (∀ a b, φ (a ^^^ b) = φ a + φ b) ∧ ∀ a b, φ (gfMul a b) = φ a * φ b) ∧
  (∀ a b, gfMul a b = gfMul b a) ∧ (∀ a b c, gfMul (gfMul a b) c = gfMul a (gfMul b c)) ∧
  (∀ a b c, gfMul a (b ^^^ c) = gfMul a b ^^^ gfMul a c) ∧ (∀ a, gfMul 1 a = a) ∧ ∀ a, gfMul 0 a = 0

/-- 41_gf_multiplier_and_diffusion.md R122 and R123: the coefficients, M[r][k] in either rotation, the two matrices row
by row, and the xor of every row and of every column, which is 3 by an inference of the spec from R122. -/
def Obligations.DiffusionMatrices : Prop :=
  diffCoeffs = #v[1, 1, 4, 1, 8, 5, 2, 9] ∧
  (∀ r k : Fin 8, diffEntry .right r k = diffCoeffs[(k.val + 8 - r.val) % 8]'(Nat.mod_lt _ (by decide)) ∧
    diffEntry .left r k = diffCoeffs[(k.val + r.val) % 8]'(Nat.mod_lt _ (by decide))) ∧
  (∀ (rot : DiffRotation) (r : Fin 8), xorBytes (diffEntry rot r) = 3 ∧ (xorBytes fun k => diffEntry rot k r) = 3) ∧
  ((List.finRange 8).map fun r => (List.finRange 8).map (diffEntry .right r)) =
    [[1, 1, 4, 1, 8, 5, 2, 9], [9, 1, 1, 4, 1, 8, 5, 2], [2, 9, 1, 1, 4, 1, 8, 5], [5, 2, 9, 1, 1, 4, 1, 8],
     [8, 5, 2, 9, 1, 1, 4, 1], [1, 8, 5, 2, 9, 1, 1, 4], [4, 1, 8, 5, 2, 9, 1, 1], [1, 4, 1, 8, 5, 2, 9, 1]] ∧
  ((List.finRange 8).map fun r => (List.finRange 8).map (diffEntry .left r)) =
    [[1, 1, 4, 1, 8, 5, 2, 9], [1, 4, 1, 8, 5, 2, 9, 1], [4, 1, 8, 5, 2, 9, 1, 1], [1, 8, 5, 2, 9, 1, 1, 4],
     [8, 5, 2, 9, 1, 1, 4, 1], [5, 2, 9, 1, 1, 4, 1, 8], [2, 9, 1, 1, 4, 1, 8, 5], [9, 1, 1, 4, 1, 8, 5, 2]]

/-- 41_gf_multiplier_and_diffusion.md R124, its corner cases, which the spec infers: DIFFUSE maps 0 to 0 and is linear
over xor, and a state whose bytes all equal v is mapped to one whose bytes all equal GF_MUL(3, v). -/
def Obligations.DiffuseIsLinear : Prop :=
  ∀ rot : DiffRotation,
    diffuse rot zeroBlock = zeroBlock ∧
    (∀ a b : Block, diffuse rot (xorBlock a b) = xorBlock (diffuse rot a) (diffuse rot b)) ∧
    ∀ v : Byte, diffuse rot (blockOfFn fun _ => pack fun _ => v) = blockOfFn fun _ => pack fun _ => gfMul 3 v

/-- 41_gf_multiplier_and_diffusion.md R125, an inference of the spec from R124: output column c of DIFFUSE depends only
on input column c. -/
def Obligations.DiffuseKeepsColumns : Prop :=
  ∀ (rot : DiffRotation) (a b : Block) (c : Fin 8), (∀ k : Fin 8, byte a[k] c = byte b[k] c) →
    ∀ r : Fin 8, byte (diffuse rot a)[r] c = byte (diffuse rot b)[r] c

/-- 42_round_and_compression.md R140: byte j of word i of SUBPERM(A) is SBOX of byte j of word (i − j) mod 8, and
SUBPERM is a bijection on 512-bit states when SBOX is one on bytes, which the spec infers. -/
def Obligations.SubPermIsBijection : Prop :=
  ∀ t : Sbox,
    (∀ (a : Block) (i j : Fin 8),
      byte (subPerm t a)[i] j = substitute t (byte (a[(i.val + 8 - j.val) % 8]'(Nat.mod_lt _ (by decide))) j)) ∧
    (sboxIsPermutation t = true → Function.Bijective (subPerm t))

/-- 42_round_and_compression.md R141, R142, R143: one round, byte by byte. The key register gets SUBPERM of its own old
value and RC[r] in word 0 only; the state register gets the diffusion of SUBPERM of its own old value, plus the NEW key.
-/
def Obligations.RoundUpdatesBothRegisters : Prop :=
  ∀ (cfg : Config) (x : RoundRegs) (r : Fin 11) (i j : Fin 8),
    byte (roundStep cfg x r).kr[i] j =
      substitute cfg.sbox (byte x.kr[i - j] j) ^^^ (if i = 0 then byte (roundConstant cfg.sbox r) j else 0) ∧
    byte (roundStep cfg x r).st[i] j =
      xorBytes (fun k => gfMul (diffEntry cfg.diffRotation i k) (substitute cfg.sbox (byte x.st[k - j] j))) ^^^
        byte (roundStep cfg x r).kr[i] j

/-- 42_round_and_compression.md R140 to R142, examples: SUBPERM of zero, KEY_ROUND(0, 1) and STATE_ROUND(0, KEY_ROUND(0,
1)) under the default parameters. -/
def Obligations.FirstRoundOfZero : Prop :=
  subPerm defaultSbox zeroBlock = (blockOfFn fun _ => 0x1818181818181818) ∧
  keyRound defaultSbox zeroBlock 1 =
    (blockOfFn fun i => if i = 0 then 0x003bdef09fa01957 else 0x1818181818181818) ∧
  stateRound defaultConfig zeroBlock (keyRound defaultSbox zeroBlock 1) =
    (blockOfFn fun i => if i = 0 then 0x2813f6d8b788317f else 0x3030303030303030)

/-- 42_round_and_compression.md R144: COMPRESS runs ROUND for r = 1..10 in order, from KR = H and ST = H ⊕ BLK, and then
xors the H and the BLK it was given into ST. -/
def Obligations.CompressRunsTenRounds : Prop :=
  ∀ (cfg : Config) (h blk : Block), ∃ regs : Nat → RoundRegs,
    (regs 0).kr = h ∧ (regs 0).st = xorBlock h blk ∧
    (∀ r : Fin 10, regs (r.val + 1) = roundStep cfg (regs r.val) r.succ) ∧
    compress cfg h blk = xorBlock (xorBlock (regs 10).st h) blk

/-- 42_round_and_compression.md R146, an inference of the spec: column c of COMPRESS(H, BLK) depends only on column c of
H and column c of BLK, under every configuration: the compression is eight independent functions. -/
def Obligations.CompressKeepsColumns : Prop :=
  ∀ (cfg : Config) (h g a b : Block) (c : Fin 8), (∀ k : Fin 8, byte h[k] c = byte g[k] c) →
    (∀ k : Fin 8, byte a[k] c = byte b[k] c) →
    ∀ r : Fin 8, byte (compress cfg h a)[r] c = byte (compress cfg g b)[r] c

/-! ### The command encoding -/

/-- 30_encoding.md R60, R62, R68: the words of a well-formed command decode to it, with every operand; and a command
word that decodes at all is the word of the command it decodes to, with the DATA_IN of an ABSORB. -/
def Obligations.EncodeDecodeRoundTrip : Prop :=
  (∀ i : Instr, i.wellFormed = true → decode (encode i) = .ok i) ∧
  (∀ (c : Command) (i : Instr), decode c = .ok i →
    i.wellFormed = true ∧ (encode i).cmd = c.cmd ∧ ∀ len d, i = .absorb len d → d = c.dataIn)

/-- 30_encoding.md R62: the rows of the opcode map; a command word decodes exactly when one row of the opcode map
accepts it, it decodes to the command of that row, and no word is accepted by two rows. -/
def Obligations.DecodeFollowsOpcodeMap : Prop :=
  (opcodeMap.map fun r => (r.mnemonic, r.pattern, r.mask, r.lenLimit)) =
    [("INIT", 0x10000000#32, 0xFFFFFFFF#32, none), ("ABSORB", 0x20000000#32, 0xF0FFFFFF#32, some 8),
     ("FINALIZE", 0x30000000#32, 0xFFFFFFFF#32, none), ("READ_DIGEST", 0x40000000#32, 0xFFFFFFF8#32, none),
     ("READ_PARAM", 0x50000000#32, 0xFFFFFFFE#32, none)] ∧
  (∀ (c : Command) (i : Instr), decode c = .ok i → ∃ r ∈ opcodeMap, r.accepts c.cmd = true ∧ r.mnemonic = i.mnemonic) ∧
  (∀ (c : Command) (r : OpcodeRow), r ∈ opcodeMap → r.accepts c.cmd = true →
    ∃ i, decode c = .ok i ∧ i.mnemonic = r.mnemonic) ∧
  (∀ (cmd : BitVec 32) (r q : OpcodeRow), r ∈ opcodeMap → q ∈ opcodeMap → r.accepts cmd = true →
    q.accepts cmd = true → r = q)

/-- 30_encoding.md R66 and 60_exceptions.md R301: a command word is illegal exactly if one of the listed conditions
holds; then the command on the port is rejected with ILLEGAL and changes no other state. -/
def Obligations.IllegalWordsRejected : Prop :=
  (∀ c : Command, (∃ e, decode c = .error e) ↔
    (c.cmd.extractLsb' 28 4 = 0x0#4 ∨ 6 ≤ (c.cmd.extractLsb' 28 4).toNat) ∨
    c.cmd.extractLsb' 3 21 ≠ 0#21 ∨
    (c.cmd.extractLsb' 24 4 ≠ 0#4 ∧ c.cmd.extractLsb' 28 4 ≠ 0x2#4) ∨
    (8 < (c.cmd.extractLsb' 24 4).toNat ∧ c.cmd.extractLsb' 28 4 = 0x2#4) ∨
    (c.cmd.extractLsb' 0 3 ≠ 0#3 ∧ (c.cmd.extractLsb' 28 4 = 0x1#4 ∨ c.cmd.extractLsb' 28 4 = 0x2#4 ∨
      c.cmd.extractLsb' 28 4 = 0x3#4)) ∨
    (1 < (c.cmd.extractLsb' 0 3).toNat ∧ c.cmd.extractLsb' 28 4 = 0x5#4)) ∧
  (∀ s : State, (∃ e, decode ⟨s.cmd, s.dataIn⟩ = .error e) →
    runCommand s = .next { s with dataOut := 0, status := 1 })

/-- Words written out from 30_encoding.md R60 and R62 decode to the commands they stand for, or to none. -/
def Obligations.KnownWordsDecode : Prop :=
  decode ⟨0x10000000, 0⟩ = .ok .init ∧ decode ⟨0x23000000, 0x6162630000000000⟩ = .ok (.absorb 3 0x6162630000000000) ∧
  decode ⟨0x28000000, 0⟩ = .ok (.absorb 8 0) ∧ decode ⟨0x30000000, 0⟩ = .ok .finalize ∧
  decode ⟨0x40000007, 0⟩ = .ok (.readDigest 7) ∧ decode ⟨0x50000001, 0⟩ = .ok (.readParam 1) ∧
  decodeTableWord 32 0x29000000 = none ∧ decodeTableWord 32 0 = none ∧ decodeTableWord 32 0x50000002 = none

/-! ### Steps of the whole machine -/

/-- A step runs the decoded command: when the host's next event is a command, the step is the running of that command in
the state in which CMD and DATA_IN hold its words and the event is taken off; and where the words decode to i, that is
exec of i. That the host's commands stand in `host` is the model's choice (log 1). -/
def Obligations.StepRunsDecodedCommand : Prop :=
  ∀ (s : State) (c : Command) (rest : List HostEvent), configAccepted s.cfg = true → s.host = .command c :: rest →
    step s = runCommand { s with cmd := c.cmd, dataIn := c.dataIn, host := rest } ∧
    ∀ i : Instr, decode c = .ok i → step s = exec i { s with cmd := c.cmd, dataIn := c.dataIn, host := rest }

/-- 60_exceptions.md R313: with no command pending, the engine holds its state. That an idle engine's step is this one
is the model's choice (log 7). -/
def Obligations.IdleEngineHolds : Prop :=
  ∀ s : State, configAccepted s.cfg = true → s.host = [] → step s = .next s

/-- 60_exceptions.md R305: the status that the command on the port reports is the first condition of the priority list
that applies to its word and to the state it is issued in, whatever STATUS held before. -/
def Obligations.StatusFollowsPriority : Prop :=
  ∀ s : State, ∃ t, runCommand s = .next t ∧ t.status = statusCode (priorityStatus ⟨s.cmd, s.dataIn⟩ s)

/-- 60_exceptions.md R300: a command that reports a status other than OK leaves H, BUF, POS, CNT and PHASE as they were,
with DATA_OUT = 0, and nothing else changes either. -/
def Obligations.RejectionChangesNothing : Prop :=
  ∀ s t : State, runCommand s = .next t → t.status ≠ 0 → t = { s with dataOut := 0, status := t.status }

/-- 60_exceptions.md R302: in PHASE = FINAL an ABSORB of any legal LEN and a FINALIZE are rejected with FINALIZED, INIT
leaves FINAL, and no other command does. -/
def Obligations.FinalizedUntilInit : Prop :=
  (∀ (s : State) (len : BitVec 4) (d : Word), s.phase = .final → len.toNat ≤ 8 →
    exec (.absorb len d) s = .next { s with dataOut := 0, status := 2 }) ∧
  (∀ s : State, s.phase = .final → exec .finalize s = .next { s with dataOut := 0, status := 2 }) ∧
  (∀ (s t : State) (i : Instr), s.phase = .final → exec i s = .next t → (t.phase = .absorbing ↔ i = .init))

/-- 70_reset_and_hazards.md R407: once PHASE = FINAL, H and the rest of the context do not change over any number of
steps in which the host issues neither INIT nor a reset. -/
def Obligations.DigestStaysUntilInit : Prop :=
  ∀ (k : Nat) (s t : State), s.phase = .final →
    (∀ e ∈ s.host.take k, e ≠ .reset ∧ ∀ d, e ≠ .command ⟨0x10000000, d⟩) →
    Host.Core.run Sys2Proof.core k s = .next t → t.context = s.context

/-- 10_state.md R24: PHASE changes only so: a FINALIZE that reports OK takes ABSORBING to FINAL, and INIT or a reset
takes FINAL to ABSORBING. -/
def Obligations.PhaseWrittenOnlyByFinalizeAndInit : Prop :=
  ∀ s t : State, step s = .next t →
    (s.phase = .absorbing → t.phase = .final →
      (∃ d rest, s.host = .command ⟨0x30000000, d⟩ :: rest) ∧ t.status = 0) ∧
    (s.phase = .final → t.phase = .absorbing →
      ∃ rest, s.host = .reset :: rest ∨ ∃ d, s.host = .command ⟨0x10000000, d⟩ :: rest)

/-- 10_state.md R23: only ABSORB, INIT and reset write CNT, and under REJECT it only grows until INIT or reset. -/
def Obligations.CounterOnlyGrows : Prop :=
  ∀ s t : State, step s = .next t →
    (t.cnt = s.cnt ∨ (∃ c rest, s.host = .command c :: rest ∧ c.cmd.extractLsb' 28 4 = 0x2#4) ∨
      ((∃ rest, s.host = .reset :: rest ∨ ∃ d, s.host = .command ⟨0x10000000, d⟩ :: rest) ∧ t.cnt = 0)) ∧
    (s.cfg.overflowPolicy = .reject → s.cnt.toNat ≤ t.cnt.toNat ∨
      ∃ rest, s.host = .reset :: rest ∨ ∃ d, s.host = .command ⟨0x10000000, d⟩ :: rest)

/-- 10_state.md R26: no step writes the ROM or a parameter. -/
def Obligations.RomIsNeverWritten : Prop :=
  ∀ s t : State, step s = .next t → t.cfg = s.cfg

/-- The engine never stops: from every state with an accepted configuration, every number of steps reaches a next state
(60_exceptions.md R306, R315). -/
def Obligations.AcceptedEngineNeverStops : Prop :=
  ∀ (k : Nat) (s : State), configAccepted s.cfg = true → ∃ t : State, Host.Core.run Sys2Proof.core k s = .next t

/-- The invariant of the engine is kept by every step: POS = len(BUF) < 64, CNT ≡ 8·POS modulo 512 while absorbing, an
empty buffer in PHASE = FINAL, a produced status, DATA_OUT = 0 on a rejection, a bijective SBOX. -/
def Obligations.StepKeepsInvariant : Prop :=
  ∀ s t : State, s.Inv → step s = .next t → t.Inv

/-- The state after reset meets the invariant, under every configuration whose SBOX is a bijection. -/
def Obligations.ResetMeetsInvariant : Prop :=
  State.reset.Inv ∧ ∀ cfg : Config, configAccepted cfg = true → (State.resetWith cfg).Inv

/-- 10_state.md R31, an inference of the spec, and R27: two engines with equal contexts and equal ROMs answer every
sequence of the host's events alike and end in equal contexts, whatever DATA_OUT, STATUS, CMD and DATA_IN held before.
-/
def Obligations.ContextDeterminesResponses : Prop :=
  ∀ (k : Nat) (s u : State), s.context = u.context → s.cfg = u.cfg → s.host = u.host → k ≤ s.host.length →
    observe k s = observe k u ∧
    ∀ t : State, Host.Core.run Sys2Proof.core k s = .next t →
      ∃ v : State, Host.Core.run Sys2Proof.core k u = .next v ∧ v.context = t.context

/-- 30_encoding.md R68, examples: one line of each row of the assembler's table, decimal and hexadecimal operands,
comments; and the lines of a program give their words in order. The layout of the text is the model's choice (log 17).
-/
def Obligations.AssemblerFollowsTable : Prop :=
  assembleLine "init".toList = some [⟨0x10000000, 0⟩] ∧
  assembleLine "absorb 3, 0x6162630000000000 ; abc".toList = some [⟨0x23000000, 0x6162630000000000⟩] ∧
  assembleLine "absorb 8, 255".toList = some [⟨0x28000000, 255⟩] ∧
  assembleLine "finalize".toList = some [⟨0x30000000, 0⟩] ∧
  assembleLine "read_digest 7".toList = some [⟨0x40000007, 0⟩] ∧
  assembleLine "read_param 0x1".toList = some [⟨0x50000001, 0⟩] ∧
  assembleLine "; a comment".toList = some [] ∧
  ∀ (a b : List Char) (x y : List Command), assembleLine a = some x → assembleLine b = some y →
    assemble [a, b] = some (x ++ y)

/-! ### Whole computations -/

/-- 30_encoding.md R69: the pseudo-instruction absorb_bytes: its chunks concatenate to the byte string, all but the last
have 8 bytes, all are legal, and there are ⌈n/8⌉ of them, or one empty one for the empty string. -/
def Obligations.AbsorbBytesExpansion : Prop :=
  ∀ m : List Byte, ∃ xs : List (BitVec 4 × Word),
    absorbBytes m = xs.map (fun x => .absorb x.1 x.2) ∧
    xs.flatMap (fun x => chunk x.1 x.2) = m ∧ xs.length = max 1 ((m.length + 7) / 8) ∧
    (∀ x ∈ xs, x.1.toNat ≤ 8) ∧ ∀ x ∈ xs.dropLast, x.1.toNat = 8

/-- 30_encoding.md R69 with 43_streaming_absorb.md R164: issuing the commands of `hash m` in any state of an accepted
configuration, for a message of fewer than 2^253 bytes, reports OK for every command, leaves the bulk digest of m in H
in PHASE = FINAL, and returns its eight words in order from the READ_DIGEST commands. -/
def Obligations.HashCommandsComputeBulkDigest : Prop :=
  ∀ (s : State) (m : List Byte) (rest : List HostEvent), configAccepted s.cfg = true → m.length < 2 ^ 253 →
    s.host = hostProgram (hashCommands m) ++ rest →
    (∃ t : State, Host.Core.run Sys2Proof.core (hashCommands m).length s = .next t ∧ t.h = bulkDigest s.cfg m ∧
      t.phase = .final ∧ t.cnt.toNat = 8 * m.length ∧ t.host = rest) ∧
    (observe (hashCommands m).length s).take ((hashCommands m).length - 8) =
      List.replicate ((hashCommands m).length - 8) (0, 0) ∧
    (observe (hashCommands m).length s).drop ((hashCommands m).length - 8) =
      (bulkDigest s.cfg m).toList.map fun w => (0, w)

/-- 42_round_and_compression.md R146, an inference of the spec, here for whole messages: two messages of one length that
agree on every byte position outside column c (positions congruent to c modulo 8) have digests that agree on every
column but c. -/
def Obligations.DigestKeepsColumns : Prop :=
  ∀ (cfg : Config) (m n : List Byte) (c : Fin 8), m.length = n.length →
    (∀ p : Nat, p % 8 ≠ c.val → m[p]? = n[p]?) →
    ∀ i j : Fin 8, j ≠ c → byte (bulkDigest cfg m)[i] j = byte (bulkDigest cfg n)[i] j

/-! ### The engine is not ISO Whirlpool -/

/-- 44_finalization.md R188, its reason, with R147 and R124: on every state that is 0 but for one byte, DIFFUSE, in either
rotation, reaches every word and keeps the column, where the θ of ISO Whirlpool reaches every byte of the one word and no
other word; and KEY_ROUND and the ISO key round differ on every key that SUBPERM takes to such a state. What ISO
Whirlpool does is the spec's general knowledge (log 22). -/
def Obligations.KeyScheduleAndDiffusionDifferFromIso : Prop :=
  ∀ (a : Block) (w c : Fin 8), byte a[w] c ≠ 0 → (∀ i j : Fin 8, i ≠ w ∨ j ≠ c → byte a[i] j = 0) →
    (∀ (rot : DiffRotation) (i j : Fin 8), byte (diffuse rot a)[i] j ≠ 0 ↔ j = c) ∧
    (∀ i j : Fin 8, byte (isoTheta a)[i] j ≠ 0 ↔ i = w) ∧
    ∀ (k : Block) (r : Fin 11), subPerm defaultSbox k = a → keyRound defaultSbox k r ≠ isoKeyRound k r

/-- 44_finalization.md R188, with the inputs of 95_test_vectors.md section 9: the digests of "" and of "abc" differ from
those of ISO Whirlpool, which are the published values, under either window of the length field. That R188 says so of
every input is beyond these two (log 22). -/
def Obligations.DigestsDifferFromIso : Prop :=
  isoDigest [] =
    #v[0x19fa61d75522a466, 0x9b44e39c1d2e1726, 0xc530232130d407f8, 0x9afee0964997f7a7,
      0x3e83be698b288feb, 0xcf88e3e03c4f0757, 0xea8964e59b63d937, 0x08b138cc42a66eb3] ∧
  isoDigest [0x61, 0x62, 0x63] =
    #v[0x4e2448a4c6f486bb, 0x16b6562c73b4020b, 0xf3043e3a731bce72, 0x1ae1b303d97e6d4c,
      0x7181eebdb6c57e27, 0x7d0e34957114cbd6, 0xc797fc9d95d8b582, 0xd225292076d4eef5] ∧
  ∀ w : LengthWindow,
    bulkDigest { defaultConfig with lengthWindow := w } [] ≠ isoDigest [] ∧
    bulkDigest { defaultConfig with lengthWindow := w } [0x61, 0x62, 0x63] ≠ isoDigest [0x61, 0x62, 0x63]
end

