-- ==== Sys2Proof/Laws/State.lean ====
section
/-! SUPPORT. What each update of State writes and what it leaves: one lemma per field and update, true by unfolding, so that
no later proof unfolds a record update. -/

namespace Sys2Proof.Machine

section
variable (s : State) (st : Status) (d : Word) (c : Command) (rest : List HostEvent)

@[simp] theorem responded_h : (responded st d s).h = s.h := rfl
@[simp] theorem responded_buf : (responded st d s).buf = s.buf := rfl
@[simp] theorem responded_pos : (responded st d s).pos = s.pos := rfl
@[simp] theorem responded_cnt : (responded st d s).cnt = s.cnt := rfl
@[simp] theorem responded_phase : (responded st d s).phase = s.phase := rfl
@[simp] theorem responded_cmd : (responded st d s).cmd = s.cmd := rfl
@[simp] theorem responded_dataIn : (responded st d s).dataIn = s.dataIn := rfl
@[simp] theorem responded_dataOut : (responded st d s).dataOut = d := rfl
@[simp] theorem responded_status : (responded st d s).status = statusCode st := rfl
@[simp] theorem responded_cfg : (responded st d s).cfg = s.cfg := rfl
@[simp] theorem responded_host : (responded st d s).host = s.host := rfl

@[simp] theorem issued_h : (issued c rest s).h = s.h := rfl
@[simp] theorem issued_buf : (issued c rest s).buf = s.buf := rfl
@[simp] theorem issued_pos : (issued c rest s).pos = s.pos := rfl
@[simp] theorem issued_cnt : (issued c rest s).cnt = s.cnt := rfl
@[simp] theorem issued_phase : (issued c rest s).phase = s.phase := rfl
@[simp] theorem issued_cmd : (issued c rest s).cmd = c.cmd := rfl
@[simp] theorem issued_dataIn : (issued c rest s).dataIn = c.dataIn := rfl
@[simp] theorem issued_dataOut : (issued c rest s).dataOut = s.dataOut := rfl
@[simp] theorem issued_status : (issued c rest s).status = s.status := rfl
@[simp] theorem issued_cfg : (issued c rest s).cfg = s.cfg := rfl
@[simp] theorem issued_host : (issued c rest s).host = rest := rfl

@[simp] theorem clearContext_h : (clearContext s).h = zeroBlock := rfl
@[simp] theorem clearContext_buf : (clearContext s).buf = [] := rfl
@[simp] theorem clearContext_pos : (clearContext s).pos = 0 := rfl
@[simp] theorem clearContext_cnt : (clearContext s).cnt = 0 := rfl
@[simp] theorem clearContext_phase : (clearContext s).phase = .absorbing := rfl
@[simp] theorem clearContext_cmd : (clearContext s).cmd = s.cmd := rfl
@[simp] theorem clearContext_dataIn : (clearContext s).dataIn = s.dataIn := rfl
@[simp] theorem clearContext_dataOut : (clearContext s).dataOut = s.dataOut := rfl
@[simp] theorem clearContext_status : (clearContext s).status = s.status := rfl
@[simp] theorem clearContext_cfg : (clearContext s).cfg = s.cfg := rfl
@[simp] theorem clearContext_host : (clearContext s).host = s.host := rfl

@[simp] theorem resetEngine_h : (resetEngine s).h = zeroBlock := rfl
@[simp] theorem resetEngine_buf : (resetEngine s).buf = [] := rfl
@[simp] theorem resetEngine_pos : (resetEngine s).pos = 0 := rfl
@[simp] theorem resetEngine_cnt : (resetEngine s).cnt = 0 := rfl
@[simp] theorem resetEngine_phase : (resetEngine s).phase = .absorbing := rfl
@[simp] theorem resetEngine_cmd : (resetEngine s).cmd = s.cmd := rfl
@[simp] theorem resetEngine_dataIn : (resetEngine s).dataIn = s.dataIn := rfl
@[simp] theorem resetEngine_dataOut : (resetEngine s).dataOut = 0 := rfl
@[simp] theorem resetEngine_status : (resetEngine s).status = statusCode .ok := rfl
@[simp] theorem resetEngine_cfg : (resetEngine s).cfg = s.cfg := rfl
@[simp] theorem resetEngine_host : (resetEngine s).host = s.host := rfl

@[simp] theorem blockFull_h : (blockFull s).h = compress s.cfg s.h (loadBlock s.buf) := rfl
@[simp] theorem blockFull_buf : (blockFull s).buf = [] := rfl
@[simp] theorem blockFull_pos : (blockFull s).pos = 0 := rfl
@[simp] theorem blockFull_cnt : (blockFull s).cnt = s.cnt := rfl
@[simp] theorem blockFull_phase : (blockFull s).phase = s.phase := rfl
@[simp] theorem blockFull_cmd : (blockFull s).cmd = s.cmd := rfl
@[simp] theorem blockFull_dataIn : (blockFull s).dataIn = s.dataIn := rfl
@[simp] theorem blockFull_dataOut : (blockFull s).dataOut = s.dataOut := rfl
@[simp] theorem blockFull_status : (blockFull s).status = s.status := rfl
@[simp] theorem blockFull_cfg : (blockFull s).cfg = s.cfg := rfl
@[simp] theorem blockFull_host : (blockFull s).host = s.host := rfl

@[simp] theorem finalized_h : (finalized s).h = finalH s := rfl
@[simp] theorem finalized_buf : (finalized s).buf = [] := rfl
@[simp] theorem finalized_pos : (finalized s).pos = 0 := rfl
@[simp] theorem finalized_cnt : (finalized s).cnt = s.cnt := rfl
@[simp] theorem finalized_phase : (finalized s).phase = .final := rfl
@[simp] theorem finalized_cmd : (finalized s).cmd = s.cmd := rfl
@[simp] theorem finalized_dataIn : (finalized s).dataIn = s.dataIn := rfl
@[simp] theorem finalized_dataOut : (finalized s).dataOut = s.dataOut := rfl
@[simp] theorem finalized_status : (finalized s).status = s.status := rfl
@[simp] theorem finalized_cfg : (finalized s).cfg = s.cfg := rfl
@[simp] theorem finalized_host : (finalized s).host = s.host := rfl

end

/-! The steps of ABSORB write H, BUF, POS and CNT only. -/

@[simp] theorem appendByte_cnt (s : State) (x : Byte) : (appendByte s x).cnt = s.cnt := by
  unfold appendByte; split <;> rfl
@[simp] theorem appendBytes_cnt (s : State) (bs : List Byte) : (appendBytes s bs).cnt = s.cnt := by
  induction bs generalizing s with
  | nil => rfl
  | cons b bs ih => exact (ih (appendByte s b)).trans (appendByte_cnt s b)
@[simp] theorem appendByte_phase (s : State) (x : Byte) : (appendByte s x).phase = s.phase := by
  unfold appendByte; split <;> rfl
@[simp] theorem appendBytes_phase (s : State) (bs : List Byte) : (appendBytes s bs).phase = s.phase := by
  induction bs generalizing s with
  | nil => rfl
  | cons b bs ih => exact (ih (appendByte s b)).trans (appendByte_phase s b)
@[simp] theorem appendByte_cmd (s : State) (x : Byte) : (appendByte s x).cmd = s.cmd := by
  unfold appendByte; split <;> rfl
@[simp] theorem appendBytes_cmd (s : State) (bs : List Byte) : (appendBytes s bs).cmd = s.cmd := by
  induction bs generalizing s with
  | nil => rfl
  | cons b bs ih => exact (ih (appendByte s b)).trans (appendByte_cmd s b)
@[simp] theorem appendByte_dataIn (s : State) (x : Byte) : (appendByte s x).dataIn = s.dataIn := by
  unfold appendByte; split <;> rfl
@[simp] theorem appendBytes_dataIn (s : State) (bs : List Byte) : (appendBytes s bs).dataIn = s.dataIn := by
  induction bs generalizing s with
  | nil => rfl
  | cons b bs ih => exact (ih (appendByte s b)).trans (appendByte_dataIn s b)
@[simp] theorem appendByte_dataOut (s : State) (x : Byte) : (appendByte s x).dataOut = s.dataOut := by
  unfold appendByte; split <;> rfl
@[simp] theorem appendBytes_dataOut (s : State) (bs : List Byte) : (appendBytes s bs).dataOut = s.dataOut := by
  induction bs generalizing s with
  | nil => rfl
  | cons b bs ih => exact (ih (appendByte s b)).trans (appendByte_dataOut s b)
@[simp] theorem appendByte_status (s : State) (x : Byte) : (appendByte s x).status = s.status := by
  unfold appendByte; split <;> rfl
@[simp] theorem appendBytes_status (s : State) (bs : List Byte) : (appendBytes s bs).status = s.status := by
  induction bs generalizing s with
  | nil => rfl
  | cons b bs ih => exact (ih (appendByte s b)).trans (appendByte_status s b)
@[simp] theorem appendByte_cfg (s : State) (x : Byte) : (appendByte s x).cfg = s.cfg := by
  unfold appendByte; split <;> rfl
@[simp] theorem appendBytes_cfg (s : State) (bs : List Byte) : (appendBytes s bs).cfg = s.cfg := by
  induction bs generalizing s with
  | nil => rfl
  | cons b bs ih => exact (ih (appendByte s b)).trans (appendByte_cfg s b)
@[simp] theorem appendByte_host (s : State) (x : Byte) : (appendByte s x).host = s.host := by
  unfold appendByte; split <;> rfl
@[simp] theorem appendBytes_host (s : State) (bs : List Byte) : (appendBytes s bs).host = s.host := by
  induction bs generalizing s with
  | nil => rfl
  | cons b bs ih => exact (ih (appendByte s b)).trans (appendByte_host s b)

@[simp] theorem absorbed_cnt (len : BitVec 4) (d : Word) (s : State) :
    (absorbed len d s).cnt = counterNext s.cnt len := by simp [absorbed]
@[simp] theorem absorbed_phase (len : BitVec 4) (d : Word) (s : State) : (absorbed len d s).phase = s.phase := by
  simp [absorbed]
@[simp] theorem absorbed_cmd (len : BitVec 4) (d : Word) (s : State) : (absorbed len d s).cmd = s.cmd := by
  simp [absorbed]
@[simp] theorem absorbed_dataIn (len : BitVec 4) (d : Word) (s : State) : (absorbed len d s).dataIn = s.dataIn := by
  simp [absorbed]
@[simp] theorem absorbed_dataOut (len : BitVec 4) (d : Word) (s : State) : (absorbed len d s).dataOut = s.dataOut := by
  simp [absorbed]
@[simp] theorem absorbed_status (len : BitVec 4) (d : Word) (s : State) : (absorbed len d s).status = s.status := by
  simp [absorbed]
@[simp] theorem absorbed_cfg (len : BitVec 4) (d : Word) (s : State) : (absorbed len d s).cfg = s.cfg := by
  simp [absorbed]
@[simp] theorem absorbed_host (len : BitVec 4) (d : Word) (s : State) : (absorbed len d s).host = s.host := by
  simp [absorbed]

/-- A context is the tuple of its five registers (10_state.md R31). -/
theorem context_eq_iff (s u : State) :
    s.context = u.context ↔
      s.h = u.h ∧ s.buf = u.buf ∧ s.pos = u.pos ∧ s.cnt = u.cnt ∧ s.phase = u.phase := by
  simp [State.context]

/-- A response writes no register of the context. -/
@[simp] theorem responded_context (st : Status) (d : Word) (s : State) : (responded st d s).context = s.context := rfl

/-- Issuing a command writes no register of the context. -/
@[simp] theorem issued_context (c : Command) (rest : List HostEvent) (s : State) :
    (issued c rest s).context = s.context := rfl

/-- PHASE has two values. -/
theorem phase_absorbing_or_final (p : Phase) : p = .absorbing ∨ p = .final := by cases p <;> simp

end Sys2Proof.Machine
end

