-- ==== Sys2Proof/Laws/Buffer.lean ====
section
/-! SUPPORT. The buffer steps of ABSORB: what appending bytes does when they fit, and when they fill the block
(43_streaming_absorb.md R162, R163). -/

namespace Sys2Proof.Machine

/-- POS of a buffer of fewer than 64 bytes, as a number. -/
theorem pos_eq_ofNat {s : State} (h : s.pos.toNat = s.buf.length) : s.pos = BitVec.ofNat 6 s.buf.length := by
  rw [← h, BitVec.ofNat_toNat, BitVec.setWidth_eq]

/-- The buffer of a state with POS = len(BUF) has fewer than 64 bytes (10_state.md R22). -/
theorem buf_length_lt {s : State} (h : s.pos.toNat = s.buf.length) : s.buf.length < 64 := h ▸ s.pos.isLt

/-- Appending one sequence after another. -/
theorem appendBytes_append (s : State) (xs ys : List Byte) :
    appendBytes s (xs ++ ys) = appendBytes (appendBytes s xs) ys := by simp [appendBytes]

/-- A byte that fits goes to the end of the buffer. -/
theorem appendByte_of_room {s : State} (x : Byte) (h : s.pos.toNat = s.buf.length) (hr : s.buf.length + 1 < 64) :
    appendByte s x = { s with buf := s.buf ++ [x], pos := BitVec.ofNat 6 (s.buf.length + 1) } := by
  rw [appendByte, if_neg (by omega), pos_eq_ofNat h, BitVec.ofNat_add]
  rfl

/-- The byte that fills position 63 compresses the block (43_streaming_absorb.md R163). -/
theorem appendByte_of_full {s : State} (x : Byte) (h : s.pos.toNat = s.buf.length) (hf : s.buf.length = 63) :
    appendByte s x = { s with h := compress s.cfg s.h (loadBlock (s.buf ++ [x])), buf := [], pos := 0 } := by
  rw [appendByte, if_pos (by omega)]
  rfl

/-- Appending keeps POS = len(BUF). -/
theorem appendByte_keeps_pos {s : State} (x : Byte) (h : s.pos.toNat = s.buf.length) :
    (appendByte s x).pos.toNat = (appendByte s x).buf.length := by
  have := buf_length_lt h
  by_cases hf : s.buf.length = 63
  · rw [appendByte_of_full x h hf]; rfl
  · rw [appendByte_of_room x h (by omega)]
    simp
    omega

theorem appendBytes_keeps_pos {s : State} (bs : List Byte) (h : s.pos.toNat = s.buf.length) :
    (appendBytes s bs).pos.toNat = (appendBytes s bs).buf.length := by
  induction bs generalizing s with
  | nil => exact h
  | cons b bs ih => exact ih (appendByte_keeps_pos b h)

/-- The length of the buffer after appending, modulo 64. -/
theorem appendBytes_buf_length {s : State} (bs : List Byte) (h : s.pos.toNat = s.buf.length) :
    (appendBytes s bs).buf.length = (s.buf.length + bs.length) % 64 := by
  have := buf_length_lt h
  induction bs generalizing s with
  | nil => simp [appendBytes]; omega
  | cons b bs ih =>
    rw [show appendBytes s (b :: bs) = appendBytes (appendByte s b) bs from rfl,
      ih (appendByte_keeps_pos b h) (buf_length_lt (appendByte_keeps_pos b h))]
    by_cases hf : s.buf.length = 63
    · rw [appendByte_of_full b h hf]; simp; omega
    · rw [appendByte_of_room b h (by omega)]; simp; omega

/-- Bytes that fit go to the end of the buffer; no compression runs. -/
theorem appendBytes_of_room {s : State} (bs : List Byte) (h : s.pos.toNat = s.buf.length)
    (hr : s.buf.length + bs.length < 64) :
    appendBytes s bs = { s with buf := s.buf ++ bs, pos := BitVec.ofNat 6 (s.buf.length + bs.length) } := by
  induction bs generalizing s with
  | nil => cases s; simpa [appendBytes] using pos_eq_ofNat h
  | cons b bs ih =>
    rw [List.length_cons] at hr
    rw [show appendBytes s (b :: bs) = appendBytes (appendByte s b) bs from rfl,
      ih (appendByte_keeps_pos b h) (by rw [appendByte_of_room b h (by omega)]; simp; omega),
      appendByte_of_room b h (by omega)]
    simp [Nat.add_comm, Nat.add_left_comm, Nat.add_assoc]

/-- Bytes that exactly complete the block: it is compressed and the buffer is empty. -/
theorem appendBytes_of_full {s : State} (bs : List Byte) (h : s.pos.toNat = s.buf.length)
    (hf : s.buf.length + bs.length = 64) :
    appendBytes s bs = { s with h := compress s.cfg s.h (loadBlock (s.buf ++ bs)), buf := [], pos := 0 } := by
  have hlt := buf_length_lt h
  obtain ⟨ys, y, rfl⟩ : ∃ ys y, bs = ys ++ [y] := by
    rcases List.eq_nil_or_concat bs with rfl | ⟨ys, y, rfl⟩
    · simp at hf; omega
    · exact ⟨ys, y, by simp⟩
  simp only [List.length_append, List.length_singleton] at hf
  have hk := appendBytes_keeps_pos ys h
  have hb := appendBytes_of_room ys h (by omega)
  rw [appendBytes_append]
  have hl : (appendBytes s ys).buf.length = 63 := by rw [hb]; simp; omega
  rw [show appendBytes (appendBytes s ys) [y] = appendByte (appendBytes s ys) y from rfl,
    appendByte_of_full y hk hl, hb]
  simp

/-- What appending makes of H, BUF and POS depends on H, BUF, POS and the configuration only. -/
theorem appendByte_congr {s u : State} (x : Byte) (hc : s.cfg = u.cfg)
    (h : s.h = u.h ∧ s.buf = u.buf ∧ s.pos = u.pos) :
    (appendByte s x).h = (appendByte u x).h ∧ (appendByte s x).buf = (appendByte u x).buf ∧
      (appendByte s x).pos = (appendByte u x).pos := by
  obtain ⟨h1, h2, h3⟩ := h
  unfold appendByte
  rw [h3]
  split <;> simp [h1, h2, hc]

theorem appendBytes_congr {s u : State} (bs : List Byte) (hc : s.cfg = u.cfg)
    (h : s.h = u.h ∧ s.buf = u.buf ∧ s.pos = u.pos) :
    (appendBytes s bs).h = (appendBytes u bs).h ∧ (appendBytes s bs).buf = (appendBytes u bs).buf ∧
      (appendBytes s bs).pos = (appendBytes u bs).pos := by
  induction bs generalizing s u with
  | nil => exact h
  | cons b bs ih => exact ih (by simp [hc]) (appendByte_congr b hc h)

end Sys2Proof.Machine
end

