-- ==== Sys2Proof/Laws/Bytes.lean ====
section
/-! SUPPORT. The small lemmas of bytes, words and 8-word states: each definition of Machine/Bytes.lean read back. -/

namespace Sys2Proof.Machine

/-- Unpacking what was packed gives the bytes. -/
@[simp] theorem byte_pack (f : Fin 8 → Byte) (j : Fin 8) : byte (pack f) j = f j := by
  apply BitVec.eq_of_getLsbD_eq
  intro i hi
  simp only [byte, pack, BitVec.getLsbD_extractLsb', BitVec.getLsbD_append]
  fin_cases j <;> simp only [hi, decide_true, Bool.true_and] <;> split_ifs <;>
    first
    | omega
    | exact congrArg _ (by omega)

/-- Packing the bytes of a word gives the word. -/
@[simp] theorem pack_byte (w : Word) : pack (byte w) = w := by
  apply BitVec.eq_of_getLsbD_eq
  intro i hi
  simp only [byte, pack, BitVec.getLsbD_extractLsb', BitVec.getLsbD_append]
  split_ifs <;> rw [decide_eq_true (by omega), Bool.true_and] <;> exact congrArg _ (by simp <;> omega)

/-- Two words with equal bytes are equal. -/
theorem word_ext {v w : Word} (h : ∀ j, byte v j = byte w j) : v = w := by
  rw [← pack_byte v, ← pack_byte w, funext h]

/-- byte distributes over xor. -/
@[simp] theorem byte_xor (v w : Word) (j : Fin 8) : byte (v ^^^ w) j = byte v j ^^^ byte w j := by
  ext i hi; simp [byte]

@[simp] theorem byte_zero (j : Fin 8) : byte 0#64 j = 0#8 := by
  ext i hi; simp [byte]

/-- Word i of a state built word by word. -/
@[simp] theorem blockOfFn_get (f : Fin 8 → Word) (i : Nat) (h : i < 8) : (blockOfFn f)[i] = f ⟨i, h⟩ := by
  interval_cases i <;> rfl

/-- Two 8-word states with equal words are equal. -/
theorem block_ext {a b : Block} (h : ∀ i : Fin 8, a[i] = b[i]) : a = b := by
  apply Vector.ext
  intro i hi
  exact h ⟨i, hi⟩

/-- Two 8-word states with equal bytes are equal. -/
theorem block_ext_byte {a b : Block} (h : ∀ i j : Fin 8, byte a[i] j = byte b[i] j) : a = b :=
  block_ext fun i => word_ext (h i)

@[simp] theorem blockOfFn_eta (a : Block) : (blockOfFn fun i => a[i]) = a := block_ext fun i => by simp

@[simp] theorem zeroBlock_get (i : Nat) (h : i < 8) : zeroBlock[i] = 0#64 := by simp [zeroBlock]

@[simp] theorem xorBlock_get (a b : Block) (i : Nat) (h : i < 8) : (xorBlock a b)[i] = a[i] ^^^ b[i] := by
  simp [xorBlock]

/-- Word i, byte j of a loaded block is byte 8i+j (20_memory.md R41). -/
@[simp] theorem byte_loadBlock (b : List Byte) (i : Nat) (h : i < 8) (j : Fin 8) :
    byte (loadBlock b)[i] j = b.getD (8 * i + j.val) 0 := by simp [loadBlock]

@[simp] theorem bytesOfWord_length (w : Word) : (bytesOfWord w).length = 8 := rfl

/-- Entry t of the bytes of a word (20_memory.md R42). -/
theorem bytesOfWord_getElem? (w : Word) (t : Nat) :
    (bytesOfWord w)[t]? = if h : t < 8 then some (byte w ⟨t, h⟩) else none := by
  split
  · rename_i h
    interval_cases t <;> rfl
  · rename_i h
    exact List.getElem?_eq_none (by simp; omega)

@[simp] theorem bytesOf256_length (x : BitVec 256) : (bytesOf256 x).length = 32 := by simp [bytesOf256]

theorem digestBytes_length (h : Block) : (digestBytes h).length = 64 := by
  simp [digestBytes, List.length_flatMap]

/-- An 8-word state as the list of its words. -/
theorem block_toList (a : Block) : a.toList = [a[0], a[1], a[2], a[3], a[4], a[5], a[6], a[7]] := by
  apply List.ext_getElem
  · simp
  · intro n h1 h2
    have : n < 8 := by simpa using h1
    interval_cases n <;> simp

/-- Byte 8i+j of the digest is byte(H[i], j) (20_memory.md R43). -/
theorem digestBytes_getElem? (h : Block) (i j : Fin 8) :
    (digestBytes h)[8 * i.val + j.val]? = some (byte h[i] j) := by
  rw [digestBytes, block_toList]
  fin_cases i <;> fin_cases j <;> rfl

end Sys2Proof.Machine
end

