-- ==== Sys2Proof/Laws/Decode.lean ====
section
/-! SUPPORT. The fields of a command word and the command word of its fields (30_encoding.md R60), and what the decoder can
answer. -/

namespace Sys2Proof

@[simp] theorem fieldOp_cmdWord (op len : BitVec 4) (idx : BitVec 3) : fieldOp (cmdWord op len idx) = op := by
  apply BitVec.eq_of_getLsbD_eq
  intro i hi
  simp only [fieldOp, cmdWord, BitVec.getLsbD_extractLsb', BitVec.getLsbD_append]
  rw [if_neg (by omega), if_neg (by omega), if_neg (by omega), decide_eq_true hi, Bool.true_and]
  exact congrArg _ (by omega)

@[simp] theorem fieldLen_cmdWord (op len : BitVec 4) (idx : BitVec 3) : fieldLen (cmdWord op len idx) = len := by
  apply BitVec.eq_of_getLsbD_eq
  intro i hi
  simp only [fieldLen, cmdWord, BitVec.getLsbD_extractLsb', BitVec.getLsbD_append]
  rw [if_neg (by omega), if_neg (by omega), if_pos (by omega), decide_eq_true hi, Bool.true_and]
  exact congrArg _ (by omega)

@[simp] theorem fieldRsv_cmdWord (op len : BitVec 4) (idx : BitVec 3) : fieldRsv (cmdWord op len idx) = 0 := by
  apply BitVec.eq_of_getLsbD_eq
  intro i hi
  simp only [fieldRsv, cmdWord, BitVec.getLsbD_extractLsb', BitVec.getLsbD_append]
  rw [if_neg (by omega), if_pos (by omega)]
  simp

@[simp] theorem fieldIdx_cmdWord (op len : BitVec 4) (idx : BitVec 3) : fieldIdx (cmdWord op len idx) = idx := by
  apply BitVec.eq_of_getLsbD_eq
  intro i hi
  simp only [fieldIdx, cmdWord, BitVec.getLsbD_extractLsb', BitVec.getLsbD_append]
  rw [if_pos (by omega), decide_eq_true hi, Bool.true_and]
  exact congrArg _ (by omega)

/-- A command word with RSV = 0 is the word of its fields. -/
theorem cmdWord_fields (cmd : BitVec 32) (h : fieldRsv cmd = 0#21) :
    cmdWord (fieldOp cmd) (fieldLen cmd) (fieldIdx cmd) = cmd := by
  apply BitVec.eq_of_getLsbD_eq
  intro i hi
  simp only [fieldOp, fieldLen, fieldIdx, cmdWord, BitVec.getLsbD_extractLsb', BitVec.getLsbD_append]
  split_ifs with h1 h2 h3
  · rw [decide_eq_true h1, Bool.true_and]
    exact congrArg _ (by omega)
  · have hr := congrArg (fun v => v.getLsbD (i - 3)) h
    simp only [fieldRsv, BitVec.getLsbD_extractLsb', decide_eq_true h2, Bool.true_and] at hr
    rw [show 3 + (i - 3) = i by omega] at hr
    rw [hr]
  · rw [decide_eq_true h3, Bool.true_and]
    exact congrArg _ (by omega)
  · rw [decide_eq_true (by omega), Bool.true_and]
    exact congrArg _ (by omega)

/-- What the decoder accepts, and what it then answers: one case for each command. -/
theorem decode_ok_iff (c : Command) (i : Instr) :
    decode c = .ok i ↔ fieldRsv c.cmd = 0#21 ∧
      ((fieldOp c.cmd = 1#4 ∧ fieldLen c.cmd = 0#4 ∧ fieldIdx c.cmd = 0#3 ∧ i = .init) ∨
       (fieldOp c.cmd = 2#4 ∧ fieldIdx c.cmd = 0#3 ∧ absorbLenLegal (fieldLen c.cmd) = true ∧
         i = .absorb (fieldLen c.cmd) c.dataIn) ∨
       (fieldOp c.cmd = 3#4 ∧ fieldLen c.cmd = 0#4 ∧ fieldIdx c.cmd = 0#3 ∧ i = .finalize) ∨
       (fieldOp c.cmd = 4#4 ∧ fieldLen c.cmd = 0#4 ∧ i = .readDigest (fieldIdx c.cmd)) ∨
       (fieldOp c.cmd = 5#4 ∧ fieldLen c.cmd = 0#4 ∧ paramIdxLegal (fieldIdx c.cmd) = true ∧
         i = .readParam (fieldIdx c.cmd))) := by
  unfold decode
  by_cases hr : fieldRsv c.cmd = 0#21
  · rw [if_neg (not_not.mpr hr)]
    simp only [hr, true_and]
    generalize fieldOp c.cmd = op
    by_cases h1 : op = 1#4
    · subst h1; simp [decodePlain, ite_eq_iff, @eq_comm _ i]
    by_cases h2 : op = 2#4
    · subst h2; simp [decodeAbsorb, ite_eq_iff, @eq_comm _ i]
    by_cases h3 : op = 3#4
    · subst h3; simp [decodePlain, ite_eq_iff, @eq_comm _ i]
    by_cases h4 : op = 4#4
    · subst h4; simp [decodeReadDigest, ite_eq_iff, @eq_comm _ i]
    by_cases h5 : op = 5#4
    · subst h5; simp [decodeReadParam, ite_eq_iff, @eq_comm _ i]
    simp [h1, h2, h3, h4, h5]
  · simp [hr]

end Sys2Proof
end

