-- ==== Sys2Proof/Laws/Finalize.lean ====
section
/-! SUPPORT. Lengths of the padding and of the finalization bytes (44_finalization.md R181 to R183). -/

namespace Sys2Proof.Machine

@[simp] theorem pad_length (buf : List Byte) :
    (pad buf).length = buf.length + 1 + padZeros (buf.length + 1) := by simp [pad]; omega

@[simp] theorem lengthField_length (w : LengthWindow) (cnt : BitVec 256) : (lengthField w cnt).length = 32 := by
  simp [lengthField]

/-- The zero bytes are fewer than 64. -/
theorem padZeros_lt (n : Nat) : padZeros n < 64 := by unfold padZeros; omega

/-- The padded content ends at 32 modulo 64. -/
theorem add_padZeros_mod (n : Nat) : (n + padZeros n) % 64 = 32 := by unfold padZeros; omega

/-- The finalization bytes are a whole number of blocks. -/
theorem finalBytes_length_mod (w : LengthWindow) (buf : List Byte) (cnt : BitVec 256) :
    (finalBytes w buf cnt).length % 64 = 0 := by
  have := add_padZeros_mod (buf.length + 1)
  simp [finalBytes]
  omega

end Sys2Proof.Machine
end

