-- ==== Sys2Proof/Laws/Gf.lean ====
section
/-! SUPPORT. The multiplier and the diffusion layer: linearity over xor, and the output of DIFFUSE byte by byte. -/

namespace Sys2Proof.Machine

@[simp] theorem gfDouble_zero : gfDouble 0 = 0 := rfl

/-- Doubling is linear over xor. -/
theorem gfDouble_xor (a b : Byte) : gfDouble (a ^^^ b) = gfDouble a ^^^ gfDouble b := by
  unfold gfDouble
  rw [BitVec.getLsbD_xor, BitVec.shiftLeft_xor_distrib]
  cases a.getLsbD 7 <;> cases b.getLsbD 7 <;> simp <;> ext i hi <;> simp <;> grind

/-- The accumulator of the multiplier is only added to. -/
theorem gfMulLoop_acc (n : Nat) (a b p : Byte) : gfMulLoop n a b p = p ^^^ gfMulLoop n a b 0 := by
  induction n generalizing a b p with
  | zero => simp [gfMulLoop]
  | succ n ih =>
    rw [gfMulLoop, gfMulLoop, ih, ih (p := if b.getLsbD 0 then _ else _)]
    split <;> simp [BitVec.xor_assoc]

/-- One iteration of the multiplier. -/
theorem gfMulLoop_succ (n : Nat) (a b : Byte) :
    gfMulLoop (n + 1) a b 0 = (if b.getLsbD 0 then a else 0) ^^^ gfMulLoop n (gfDouble a) (b >>> 1) 0 := by
  rw [gfMulLoop, gfMulLoop_acc]
  simp

/-- The multiplier is linear in its first operand. -/
theorem gfMulLoop_xor_left (n : Nat) (a a' b : Byte) :
    gfMulLoop n (a ^^^ a') b 0 = gfMulLoop n a b 0 ^^^ gfMulLoop n a' b 0 := by
  induction n generalizing a a' b with
  | zero => simp [gfMulLoop]
  | succ n ih =>
    rw [gfMulLoop_succ, gfMulLoop_succ, gfMulLoop_succ, gfDouble_xor, ih]
    cases b.getLsbD 0 <;> simp only [if_true, Bool.false_eq_true, if_false] <;> ac_rfl

/-- The multiplier is linear in its second operand. -/
theorem gfMulLoop_xor_right (n : Nat) (a b b' : Byte) :
    gfMulLoop n a (b ^^^ b') 0 = gfMulLoop n a b 0 ^^^ gfMulLoop n a b' 0 := by
  induction n generalizing a b b' with
  | zero => simp [gfMulLoop]
  | succ n ih =>
    rw [gfMulLoop_succ, gfMulLoop_succ, gfMulLoop_succ, BitVec.ushiftRight_xor_distrib, ih, BitVec.getLsbD_xor]
    cases b.getLsbD 0 <;> cases b'.getLsbD 0 <;> simp <;> first | ac_rfl | (ext i hi; simp; grind)

/-- GF_MUL is linear in its first operand. -/
theorem gfMul_xor_left (a a' b : Byte) : gfMul (a ^^^ a') b = gfMul a b ^^^ gfMul a' b := gfMulLoop_xor_left 8 a a' b

/-- GF_MUL is linear in its second operand. -/
theorem gfMul_xor_right (a b b' : Byte) : gfMul a (b ^^^ b') = gfMul a b ^^^ gfMul a b' := gfMulLoop_xor_right 8 a b b'

@[simp] theorem gfMul_zero_right (a : Byte) : gfMul a 0#8 = 0#8 := by simpa using gfMul_xor_right a 0#8 0#8

/-- The xor of eight bytes depends on each of them alone. -/
theorem xorBytes_congr {f g : Fin 8 → Byte} (h : ∀ k, f k = g k) : xorBytes f = xorBytes g := by rw [funext h]

/-- The xor of eight bytes is linear. -/
theorem xorBytes_xor (f g : Fin 8 → Byte) : (xorBytes fun k => f k ^^^ g k) = xorBytes f ^^^ xorBytes g := by
  simp only [xorBytes]
  ac_rfl

/-- DIFFUSE byte by byte (41_gf_multiplier_and_diffusion.md R124). -/
@[simp] theorem byte_diffuse (rot : DiffRotation) (a : Block) (r : Nat) (h : r < 8) (c : Fin 8) :
    byte (diffuse rot a)[r] c = xorBytes fun k => gfMul (diffEntry rot ⟨r, h⟩ k) (byte a[k] c) := by
  simp [diffuse]

end Sys2Proof.Machine
end

