-- ==== Sys2Proof/Laws/Round.lean ====
section
/-! SUPPORT. The round transform byte by byte (42_round_and_compression.md R140 to R143), and the compression function as a
fold. -/

namespace Sys2Proof.Machine

/-- SUBPERM byte by byte (42_round_and_compression.md R140). -/
@[simp] theorem byte_subPerm (t : Sbox) (a : Block) (i : Nat) (h : i < 8) (j : Fin 8) :
    byte (subPerm t a)[i] j = substitute t (byte a[(⟨i, h⟩ - j : Fin 8)] j) := by simp [subPerm]

/-- KEY_ROUND byte by byte (42_round_and_compression.md R141). -/
theorem byte_keyRound (t : Sbox) (k : Block) (r : Fin 11) (i j : Fin 8) :
    byte (keyRound t k r)[i] j =
      substitute t (byte k[(i - j : Fin 8)] j) ^^^ (if i = 0 then byte (roundConstant t r) j else 0) := by
  by_cases h : i = 0 <;> simp [keyRound, h]

/-- STATE_ROUND byte by byte (42_round_and_compression.md R142). -/
theorem byte_stateRound (cfg : Config) (s k : Block) (i j : Fin 8) :
    byte (stateRound cfg s k)[i] j =
      (xorBytes fun n => gfMul (diffEntry cfg.diffRotation i n)
        (substitute cfg.sbox (byte s[(n - j : Fin 8)] j))) ^^^ byte k[i] j := by simp [stateRound]

/-- The key register after the rounds rs does not depend on the block. -/
theorem runRounds_nil (cfg : Config) (h blk : Block) :
    runRounds cfg [] h blk = { kr := h, st := xorBlock h blk } := rfl

/-- One more round. -/
theorem runRounds_concat (cfg : Config) (rs : List (Fin 11)) (r : Fin 11) (h blk : Block) :
    runRounds cfg (rs ++ [r]) h blk = roundStep cfg (runRounds cfg rs h blk) r := by
  simp [runRounds]

/-- COMPRESS byte by byte: the state register after round 10, with the feed-forward (42_round_and_compression.md R144). -/
theorem byte_compress (cfg : Config) (h blk : Block) (i j : Fin 8) :
    byte (compress cfg h blk)[i] j =
      byte (runRounds cfg roundIndices h blk).st[i] j ^^^ byte h[i] j ^^^ byte blk[i] j := by
  simp [compress]

/-- Compressing n + m blocks is compressing n blocks and then m more. -/
theorem compressBlocks_append (cfg : Config) (n m : Nat) (p q : List Byte) (h : Block) (hp : p.length = 64 * n) :
    compressBlocks cfg (n + m) (p ++ q) h = compressBlocks cfg m q (compressBlocks cfg n p h) := by
  induction n generalizing p h with
  | zero =>
    have : p = [] := List.length_eq_zero_iff.mp (by simpa using hp)
    simp [this, compressBlocks]
  | succ n ih =>
    have h64 : 64 ≤ p.length := by omega
    rw [show n + 1 + m = (n + m) + 1 by omega, compressBlocks, compressBlocks,
      List.drop_append_of_le_length h64, List.take_append_of_le_length h64]
    exact ih _ _ (by simp; omega)

/-- One block. -/
theorem compressBlocks_one (cfg : Config) (p : List Byte) (h : Block) (hp : p.length = 64) :
    compressBlocks cfg 1 p h = compress cfg h (loadBlock p) := by
  rw [compressBlocks, compressBlocks, List.take_of_length_le (by omega)]

end Sys2Proof.Machine
end

