-- ==== Sys2Proof/Laws/Iso.lean ====
section
/-! SUPPORT. θ and the key round of ISO Whirlpool, byte by byte (95_test_vectors.md section 1.2). -/

namespace Sys2Proof.Machine

@[simp] theorem byte_isoTheta (a : Block) (r : Nat) (h : r < 8) (c : Fin 8) :
    byte (isoTheta a)[r] c = xorBytes fun k => gfMul (diffEntry .right k c) (byte a[r] k) := by
  simp [isoTheta]

@[simp] theorem isoKeyRound_get (k : Block) (rd : Fin 11) (i : Nat) (h : i < 8) :
    (isoKeyRound k rd)[i] =
      if i = 0 then (isoTheta (subPerm defaultSbox k))[i] ^^^ roundConstant defaultSbox rd
      else (isoTheta (subPerm defaultSbox k))[i] := by
  rw [isoKeyRound, blockOfFn_get]
  simp only [Fin.ext_iff]
  rfl

/-- The xor of eight bytes of which all but byte n are 0. -/
theorem xorBytes_single {f : Fin 8 → Byte} (n : Fin 8) (h : ∀ k, k ≠ n → f k = 0) : xorBytes f = f n := by
  have h' : ∀ k : Fin 8, f k = if k = n then f n else 0 := by
    intro k
    split
    · rename_i hk; rw [hk]
    · rename_i hk; exact h k hk
  rw [xorBytes, h' 0, h' 1, h' 2, h' 3, h' 4, h' 5, h' 6, h' 7]
  fin_cases n <;> simp

end Sys2Proof.Machine
end

