-- ==== Sys2Proof/Laws/Operands.lean ====
section
/-! SUPPORT. The chunk of an ABSORB and the counter conditions, read as arithmetic (20_memory.md R42;
43_streaming_absorb.md R161). -/

namespace Sys2Proof.Machine

/-- A legal LEN as a bound. -/
theorem absorbLenLegal_iff (len : BitVec 4) : absorbLenLegal len = true ↔ len.toNat ≤ 8 := by
  simp [absorbLenLegal]

theorem absorbLenLegal_eq_false_iff (len : BitVec 4) : absorbLenLegal len = false ↔ 8 < len.toNat := by
  simp [absorbLenLegal]

/-- A legal chunk has LEN bytes. -/
theorem chunk_length {len : BitVec 4} (d : Word) (h : len.toNat ≤ 8) : (chunk len d).length = len.toNat := by
  simp [chunk, h]

/-- Entry t of a chunk. -/
theorem chunk_getElem? (len : BitVec 4) (d : Word) (t : Nat) :
    (chunk len d)[t]? = if t < len.toNat ∧ t < 8 then some (d.extractLsb' (56 - 8 * t) 8) else none := by
  rw [chunk, List.getElem?_take, bytesOfWord_getElem?]
  by_cases h : t < len.toNat <;> by_cases h8 : t < 8 <;> simp [h, h8, byte]

/-- When an ABSORB is rejected with COUNTER_OVERFLOW. -/
theorem counterRejects_iff (cfg : Config) (cnt : BitVec 256) (len : BitVec 4) :
    counterRejects cfg cnt len = true ↔
      2 ^ 256 ≤ cnt.toNat + 8 * len.toNat ∧ cfg.overflowPolicy = .reject := by
  rw [counterRejects, counterOverflows, counterSum, Bool.and_eq_true, beq_iff_eq]
  exact and_congr_left' decide_eq_true_iff

/-- The new CNT as a number. -/
theorem counterNext_toNat (cnt : BitVec 256) (len : BitVec 4) :
    (counterNext cnt len).toNat = (cnt.toNat + 8 * len.toNat) % 2 ^ 256 := by
  simp [counterNext, counterSum]

end Sys2Proof.Machine
end

