-- ==== Sys2Proof/Laws/PerInstr.lean ====
section
/-! SUPPORT. Statements about every command as syntax, one lemma per constructor. -/

namespace Sys2Proof.Laws

/-- The words of a well-formed command decode to it (30_encoding.md R60, R62). -/
def RoundTrip.Statement (i : Instr) : Prop := i.wellFormed = true → decode (encode i) = .ok i

theorem RoundTrip.init : RoundTrip.Statement .init := fun _ => by decide

theorem RoundTrip.absorb (len : BitVec 4) (dataIn : Word) : RoundTrip.Statement (.absorb len dataIn) := by
  intro h
  rw [decode_ok_iff]
  simp_all [encode, Instr.wellFormed]

theorem RoundTrip.finalize : RoundTrip.Statement .finalize := fun _ => by decide

theorem RoundTrip.readDigest (idx : BitVec 3) : RoundTrip.Statement (.readDigest idx) := by
  intro _
  rw [decode_ok_iff]
  simp [encode]

theorem RoundTrip.readParam (idx : BitVec 3) : RoundTrip.Statement (.readParam idx) := by
  intro h
  rw [decode_ok_iff]
  simp_all [encode, Instr.wellFormed]

/-- The words of an ill-formed command are no command's (30_encoding.md R66). -/
def IllFormed.Statement (i : Instr) : Prop := i.wellFormed = false → ∀ j, decode (encode i) ≠ .ok j

theorem IllFormed.init : IllFormed.Statement .init := fun h => by simp [Instr.wellFormed] at h

theorem IllFormed.absorb (len : BitVec 4) (dataIn : Word) : IllFormed.Statement (.absorb len dataIn) := by
  intro h j hj
  simp_all [decode_ok_iff, encode, Instr.wellFormed]

theorem IllFormed.finalize : IllFormed.Statement .finalize := fun h => by simp [Instr.wellFormed] at h

theorem IllFormed.readDigest (idx : BitVec 3) : IllFormed.Statement (.readDigest idx) :=
  fun h => by simp [Instr.wellFormed] at h

theorem IllFormed.readParam (idx : BitVec 3) : IllFormed.Statement (.readParam idx) := by
  intro h j hj
  simp_all [decode_ok_iff, encode, Instr.wellFormed]

end Sys2Proof.Laws
end

