-- ==== Sys2Proof/Laws/Sbox.lean ====
section
/-! SUPPORT. What the fast check of a substitution table says: it answers true exactly for the bijections
(40_sbox_and_round_constants.md R103). -/

namespace Sys2Proof.Machine

/-- The bits that a row adds to a set of values. -/
theorem testBit_foldl_row (l : List Byte) (m v : Nat) :
    (l.foldl (fun m x => m ||| 2 ^ x.toNat) m).testBit v = true ↔ m.testBit v = true ∨ ∃ x ∈ l, x.toNat = v := by
  induction l generalizing m with
  | nil => simp
  | cons b l ih =>
    rw [List.foldl_cons, ih, Nat.testBit_or, Nat.testBit_two_pow]
    simp only [Bool.or_eq_true, decide_eq_true_eq, List.exists_mem_cons_iff]
    tauto

/-- Bit v of the set of values of a row is set exactly if v occurs in it. -/
theorem testBit_rowValues (row : Vector Byte 16) (v : Nat) :
    (rowValues row).testBit v = true ↔ ∃ x ∈ row.toList, x.toNat = v := by
  rw [rowValues, testBit_foldl_row]
  simp

/-- The bits of the set of values of a list of rows. -/
theorem testBit_foldl_rows (rows : List (Vector Byte 16)) (m v : Nat) :
    (rows.foldl (fun m row => m ||| rowValues row) m).testBit v = true ↔
      m.testBit v = true ∨ ∃ row ∈ rows, ∃ x ∈ row.toList, x.toNat = v := by
  induction rows generalizing m with
  | nil => simp
  | cons r rows ih =>
    rw [List.foldl_cons, ih, Nat.testBit_or, Bool.or_eq_true, testBit_rowValues]
    simp only [List.exists_mem_cons_iff]
    exact or_assoc

/-- Every entry of a table is the substitution of its own position. -/
theorem exists_entry_iff (t : Sbox) (y : Byte) :
    (∃ row ∈ t.toList, y ∈ row.toList) ↔ ∃ x, substitute t x = y := by
  constructor
  · rintro ⟨row, hrow, hy⟩
    obtain ⟨i, hi, rfl⟩ := List.mem_iff_getElem.mp hrow
    obtain ⟨j, hj, rfl⟩ := List.mem_iff_getElem.mp hy
    have hi' : i < 16 := by simpa using hi
    have hj' : j < 16 := by simpa using hj
    refine ⟨BitVec.ofNat 4 i ++ BitVec.ofNat 4 j, ?_⟩
    have h1 : ((BitVec.ofNat 4 i ++ BitVec.ofNat 4 j : Byte).extractLsb' 4 4).toNat = i := by
      interval_cases i <;> interval_cases j <;> rfl
    have h2 : ((BitVec.ofNat 4 i ++ BitVec.ofNat 4 j : Byte).extractLsb' 0 4).toNat = j := by
      interval_cases i <;> interval_cases j <;> rfl
    simp only [substitute, h1, h2, Vector.getElem_toList]
  · rintro ⟨x, rfl⟩
    exact ⟨t[(x.extractLsb' 4 4).toNat]'(x.extractLsb' 4 4).isLt, by simp, by simp [substitute]⟩

/-- Bit v of the set of values of a table is set exactly if some byte is mapped to v. -/
theorem testBit_sboxValues (t : Sbox) (v : Nat) :
    (sboxValues t).testBit v = true ↔ ∃ x, (substitute t x).toNat = v := by
  rw [sboxValues, testBit_foldl_rows]
  constructor
  · rintro (h | ⟨row, hr, y, hy, rfl⟩)
    · simp at h
    · obtain ⟨x, rfl⟩ := (exists_entry_iff t y).mp ⟨row, hr, hy⟩
      exact ⟨x, rfl⟩
  · rintro ⟨x, rfl⟩
    obtain ⟨row, hr, hy⟩ := (exists_entry_iff t _).mpr ⟨x, rfl⟩
    exact .inr ⟨row, hr, _, hy, rfl⟩

/-- The check answers true exactly for the tables in which every byte value occurs. -/
theorem sboxIsPermutation_iff_surjective (t : Sbox) :
    sboxIsPermutation t = true ↔ Function.Surjective (substitute t) := by
  rw [sboxIsPermutation, beq_iff_eq]
  constructor
  · intro h y
    have hy : (sboxValues t).testBit y.toNat = true := by
      rw [h, Nat.testBit_two_pow_sub_one]
      simpa using y.isLt
    obtain ⟨x, hx⟩ := (testBit_sboxValues t _).mp hy
    exact ⟨x, BitVec.eq_of_toNat_eq hx⟩
  · intro h
    apply Nat.eq_of_testBit_eq
    intro v
    rw [Nat.testBit_two_pow_sub_one, Bool.eq_iff_iff, testBit_sboxValues, decide_eq_true_eq]
    constructor
    · rintro ⟨x, rfl⟩
      exact (substitute t x).isLt
    · intro hv
      obtain ⟨x, hx⟩ := h (BitVec.ofNat 8 v)
      exact ⟨x, by rw [hx, BitVec.toNat_ofNat, Nat.mod_eq_of_lt hv]⟩

/-- The check answers true exactly for the bijections. -/
theorem sboxIsPermutation_iff_bijective (t : Sbox) :
    sboxIsPermutation t = true ↔ Function.Bijective (substitute t) := by
  have : Finite Byte := Finite.of_injective BitVec.toFin fun _ _ h => BitVec.eq_of_toFin_eq h
  rw [sboxIsPermutation_iff_surjective]
  exact ⟨fun h => ⟨Finite.injective_iff_surjective.mpr h, h⟩, fun h => h.2⟩

end Sys2Proof.Machine
end

