-- ==== Sys2Proof/Laws/Step.lean ====
section
/-! SUPPORT. What a meaning and a step can answer: said once, for the proofs about runs. -/

namespace Sys2Proof.Machine

/-- What each command can answer: one case for each row of its rule. -/
theorem execInit_eq (s : State) : execInit s = .next (responded .ok 0 (clearContext s)) := rfl

theorem execAbsorb_cases (len : BitVec 4) (d : Word) (s : State) :
    (absorbLenLegal len = false ∧ execAbsorb len d s = .next (responded .illegal 0 s)) ∨
    (absorbLenLegal len = true ∧ s.phase = .final ∧ execAbsorb len d s = .next (responded .finalized 0 s)) ∨
    (absorbLenLegal len = true ∧ s.phase = .absorbing ∧ counterRejects s.cfg s.cnt len = true ∧
      execAbsorb len d s = .next (responded .counterOverflow 0 s)) ∨
    (absorbLenLegal len = true ∧ s.phase = .absorbing ∧ counterRejects s.cfg s.cnt len = false ∧
      execAbsorb len d s = .next (responded .ok 0 (absorbed len d s))) := by
  rcases phase_absorbing_or_final s.phase with hp | hp <;> cases hl : absorbLenLegal len <;>
    cases hc : counterRejects s.cfg s.cnt len <;> simp [execAbsorb, hl, hp, hc, reject, complete]

theorem execFinalize_cases (s : State) :
    (s.phase = .final ∧ execFinalize s = .next (responded .finalized 0 s)) ∨
    (s.phase = .absorbing ∧ execFinalize s = .next (responded .ok 0 (finalized s))) := by
  rcases phase_absorbing_or_final s.phase with hp | hp <;> simp [execFinalize, hp, reject, complete]

theorem execReadDigest_cases (idx : BitVec 3) (s : State) :
    (s.phase = .absorbing ∧ execReadDigest idx s = .next (responded .notFinal 0 s)) ∨
    (s.phase = .final ∧ execReadDigest idx s = .next (responded .ok (digestWord s.h idx) s)) := by
  rcases phase_absorbing_or_final s.phase with hp | hp <;> simp [execReadDigest, hp, reject, complete]

theorem execReadParam_cases (idx : BitVec 3) (s : State) :
    (paramIdxLegal idx = true ∧ execReadParam idx s = .next (responded .ok 64 s)) ∨
    (paramIdxLegal idx = false ∧ execReadParam idx s = .next (responded .illegal 0 s)) := by
  have h : idx = 0#3 ∨ idx = 1#3 ∨ (idx ≠ 0#3 ∧ idx ≠ 1#3 ∧ paramIdxLegal idx = false) := by
    revert idx; decide
  rcases h with rfl | rfl | ⟨h0, h1, hl⟩
  · exact .inl ⟨rfl, rfl⟩
  · exact .inl ⟨rfl, rfl⟩
  · exact .inr ⟨hl, by simp [execReadParam, paramValue, h0, h1, reject]⟩

/-- Every meaning answers a next state: it rejects, which leaves all but the response, or it completes. -/
theorem exec_cases (i : Instr) (s : State) :
    (∃ st, st ≠ .ok ∧ exec i s = .next (responded st 0 s)) ∨
    (i = .init ∧ exec i s = .next (responded .ok 0 (clearContext s))) ∨
    (∃ len d, i = .absorb len d ∧ absorbLenLegal len = true ∧ s.phase = .absorbing ∧
      counterRejects s.cfg s.cnt len = false ∧ exec i s = .next (responded .ok 0 (absorbed len d s))) ∨
    (i = .finalize ∧ s.phase = .absorbing ∧ exec i s = .next (responded .ok 0 (finalized s))) ∨
    (∃ idx, i = .readDigest idx ∧ s.phase = .final ∧ exec i s = .next (responded .ok (digestWord s.h idx) s)) ∨
    (∃ idx, i = .readParam idx ∧ paramIdxLegal idx = true ∧ exec i s = .next (responded .ok 64 s)) := by
  cases i with
  | init => exact .inr (.inl ⟨rfl, rfl⟩)
  | absorb len d =>
    rcases execAbsorb_cases len d s with ⟨_, h⟩ | ⟨_, _, h⟩ | ⟨_, _, _, h⟩ | ⟨h1, h2, h3, h⟩
    · exact .inl ⟨_, by simp, h⟩
    · exact .inl ⟨_, by simp, h⟩
    · exact .inl ⟨_, by simp, h⟩
    · exact .inr (.inr (.inl ⟨len, d, rfl, h1, h2, h3, h⟩))
  | finalize =>
    rcases execFinalize_cases s with ⟨_, h⟩ | ⟨hp, h⟩
    · exact .inl ⟨_, by simp, h⟩
    · exact .inr (.inr (.inr (.inl ⟨rfl, hp, h⟩)))
  | readDigest idx =>
    rcases execReadDigest_cases idx s with ⟨_, h⟩ | ⟨hp, h⟩
    · exact .inl ⟨_, by simp, h⟩
    · exact .inr (.inr (.inr (.inr (.inl ⟨idx, rfl, hp, h⟩))))
  | readParam idx =>
    rcases execReadParam_cases idx s with ⟨hp, h⟩ | ⟨_, h⟩
    · exact .inr (.inr (.inr (.inr (.inr ⟨idx, rfl, hp, h⟩))))
    · exact .inl ⟨_, by simp, h⟩

/-- No meaning stops the machine. -/
theorem exec_answers_next (i : Instr) (s : State) : ∃ t, exec i s = .next t := by
  rcases exec_cases i s with ⟨_, _, h⟩ | ⟨_, h⟩ | ⟨_, _, _, _, _, _, h⟩ | ⟨_, _, h⟩ | ⟨_, _, _, h⟩ | ⟨_, _, _, h⟩ <;>
    exact ⟨_, h⟩

/-- No meaning writes the port's inputs, the ROM or what the host has yet to do. -/
theorem exec_frame {i : Instr} {s t : State} (h : exec i s = .next t) :
    t.cmd = s.cmd ∧ t.dataIn = s.dataIn ∧ t.cfg = s.cfg ∧ t.host = s.host := by
  rcases exec_cases i s with ⟨_, _, e⟩ | ⟨_, e⟩ | ⟨_, _, _, _, _, _, e⟩ | ⟨_, _, e⟩ | ⟨_, _, _, e⟩ | ⟨_, _, _, e⟩ <;>
    (rw [e] at h; injection h with h; subst h; simp)

/-- What one step can do: nothing pending, a reset, a command whose word is illegal, a command that decodes, or a refused
configuration. -/
theorem step_cases (s : State) :
    (configAccepted s.cfg = false ∧ step s = .refused .sboxNotPermutation) ∨
    (configAccepted s.cfg = true ∧ s.host = [] ∧ step s = .next s) ∨
    (∃ rest, configAccepted s.cfg = true ∧ s.host = .reset :: rest ∧
      step s = .next (resetEngine { s with host := rest })) ∨
    (∃ c rest e, configAccepted s.cfg = true ∧ s.host = .command c :: rest ∧ decode c = .error e ∧
      step s = .next (responded .illegal 0 (issued c rest s))) ∨
    (∃ c rest i, configAccepted s.cfg = true ∧ s.host = .command c :: rest ∧ decode c = .ok i ∧
      step s = exec i (issued c rest s)) := by
  cases hc : configAccepted s.cfg with
  | false => exact .inl ⟨rfl, by simp [step, hc]⟩
  | true =>
    cases hh : s.host with
    | nil => exact .inr (.inl ⟨rfl, rfl, by simp [step, takeEvent, hc, hh]⟩)
    | cons e rest =>
      cases e with
      | reset => exact .inr (.inr (.inl ⟨rest, rfl, rfl, by simp [step, takeEvent, hc, hh]⟩))
      | command c =>
        cases hd : decode c with
        | error e =>
          refine .inr (.inr (.inr (.inl ⟨c, rest, e, rfl, rfl, hd, ?_⟩)))
          have : decode ⟨(issued c rest s).cmd, (issued c rest s).dataIn⟩ = .error e := hd
          simp only [step, takeEvent, hc, hh, if_true, runCommand, this, reject]
        | ok i =>
          refine .inr (.inr (.inr (.inr ⟨c, rest, i, rfl, rfl, hd, ?_⟩)))
          have : decode ⟨(issued c rest s).cmd, (issued c rest s).dataIn⟩ = .ok i := hd
          simp only [step, takeEvent, hc, hh, if_true, runCommand, this]

/-! The three kinds of event, from the event. -/

theorem step_of_reset {s : State} {rest : List HostEvent} (hc : configAccepted s.cfg = true)
    (hh : s.host = .reset :: rest) : step s = .next (resetEngine { s with host := rest }) := by
  rcases step_cases s with ⟨h0, _⟩ | ⟨_, h0, _⟩ | ⟨_, _, h0, e⟩ | ⟨_, _, _, _, h0, _, _⟩ | ⟨_, _, _, _, h0, _, _⟩
  · rw [hc] at h0; cases h0
  all_goals rw [hh] at h0; cases h0
  exact e

theorem step_of_illegal {s : State} {c : Command} {rest : List HostEvent} {r : IllegalReason}
    (hc : configAccepted s.cfg = true) (hh : s.host = .command c :: rest) (hd : decode c = .error r) :
    step s = .next (responded .illegal 0 (issued c rest s)) := by
  rcases step_cases s with ⟨h0, _⟩ | ⟨_, h0, _⟩ | ⟨_, _, h0, _⟩ | ⟨_, _, _, _, h0, _, e⟩ | ⟨_, _, _, _, h0, hd', _⟩
  · rw [hc] at h0; cases h0
  all_goals rw [hh] at h0; cases h0
  · exact e
  · rw [hd] at hd'; cases hd'

theorem step_of_command {s : State} {c : Command} {rest : List HostEvent} {i : Instr}
    (hc : configAccepted s.cfg = true) (hh : s.host = .command c :: rest) (hd : decode c = .ok i) :
    step s = exec i (issued c rest s) := by
  rcases step_cases s with ⟨h0, _⟩ | ⟨_, h0, _⟩ | ⟨_, _, h0, _⟩ | ⟨_, _, _, _, h0, hd', _⟩ | ⟨_, _, _, _, h0, hd', e⟩
  · rw [hc] at h0; cases h0
  all_goals rw [hh] at h0; cases h0
  · rw [hd] at hd'; cases hd'
  · rw [hd] at hd'; cases hd'; exact e

/-- What one step to a next state did: it held, it reset, it rejected a command, or it completed one that writes the
context, or it completed a read. -/
theorem step_next_cases {s t : State} (h : step s = .next t) :
    (s.host = [] ∧ t = s) ∨
    (∃ rest, s.host = .reset :: rest ∧ t = resetEngine { s with host := rest }) ∨
    (∃ c rest st, s.host = .command c :: rest ∧ st ≠ .ok ∧ t = responded st 0 (issued c rest s)) ∨
    (∃ c rest, s.host = .command c :: rest ∧ decode c = .ok .init ∧
      t = responded .ok 0 (clearContext (issued c rest s))) ∨
    (∃ c rest len d, s.host = .command c :: rest ∧ decode c = .ok (.absorb len d) ∧ absorbLenLegal len = true ∧
      s.phase = .absorbing ∧ counterRejects s.cfg s.cnt len = false ∧
      t = responded .ok 0 (absorbed len d (issued c rest s))) ∨
    (∃ c rest, s.host = .command c :: rest ∧ decode c = .ok .finalize ∧ s.phase = .absorbing ∧
      t = responded .ok 0 (finalized (issued c rest s))) ∨
    (∃ c rest d, s.host = .command c :: rest ∧ t = responded .ok d (issued c rest s)) := by
  rcases step_cases s with ⟨_, e⟩ | ⟨_, h0, e⟩ | ⟨r, _, h0, e⟩ | ⟨c, r, _, _, h0, _, e⟩ | ⟨c, r, i, _, h0, hd, e⟩ <;>
    rw [e] at h
  · cases h
  · cases h; exact .inl ⟨h0, rfl⟩
  · cases h; exact .inr (.inl ⟨r, h0, rfl⟩)
  · cases h; exact .inr (.inr (.inl ⟨c, r, .illegal, h0, by decide, rfl⟩))
  · rcases exec_cases i (issued c r s) with ⟨st, hs, e⟩ | ⟨rfl, e⟩ | ⟨_, _, rfl, hl, hp, hc, e⟩ | ⟨rfl, hp, e⟩ |
      ⟨_, rfl, _, e⟩ | ⟨_, rfl, _, e⟩ <;> rw [e] at h <;> cases h
    · exact .inr (.inr (.inl ⟨c, r, st, h0, hs, rfl⟩))
    · exact .inr (.inr (.inr (.inl ⟨c, r, h0, hd, rfl⟩)))
    · exact .inr (.inr (.inr (.inr (.inl ⟨c, r, _, _, h0, hd, hl, hp, hc, rfl⟩))))
    · exact .inr (.inr (.inr (.inr (.inr (.inl ⟨c, r, h0, hd, hp, rfl⟩)))))
    · exact .inr (.inr (.inr (.inr (.inr (.inr ⟨c, r, _, h0, rfl⟩)))))
    · exact .inr (.inr (.inr (.inr (.inr (.inr ⟨c, r, _, h0, rfl⟩)))))

/-- A step takes the first event off. -/
theorem step_host {s t : State} (h : step s = .next t) : t.host = s.host.tail := by
  rcases step_next_cases h with ⟨h0, rfl⟩ | ⟨_, h0, rfl⟩ | ⟨_, _, _, h0, _, rfl⟩ | ⟨_, _, h0, _, rfl⟩ |
    ⟨_, _, _, _, h0, _, _, _, _, rfl⟩ | ⟨_, _, h0, _, _, rfl⟩ | ⟨_, _, _, h0, rfl⟩ <;> simp [h0]

/-- An accepted configuration steps. -/
theorem step_answers_next {s : State} (hc : configAccepted s.cfg = true) : ∃ t, step s = .next t := by
  rcases step_cases s with ⟨h0, _⟩ | ⟨_, _, e⟩ | ⟨_, _, _, e⟩ | ⟨_, _, _, _, _, _, e⟩ | ⟨_, _, _, _, _, _, e⟩
  · rw [hc] at h0; cases h0
  · exact ⟨_, e⟩
  · exact ⟨_, e⟩
  · exact ⟨_, e⟩
  · rw [e]; exact exec_answers_next _ _

/-- A run of no steps. -/
theorem run_zero (s : State) : Host.Core.run Sys2Proof.core 0 s = .next s := rfl

/-- Running k + 1 steps, unfolded once. -/
theorem run_unfold (M : Host.Core) (k : Nat) (s : M.State) :
    M.run (k + 1) s =
      match M.step s with
      | .next t => M.run k t
      | .fault r => .fault r
      | .refused r => .refused r := rfl

/-- A run of k + 1 steps is a step and a run of k. -/
theorem run_succ (k : Nat) {s u : State} (h : step s = .next u) :
    Host.Core.run Sys2Proof.core (k + 1) s = Host.Core.run Sys2Proof.core k u := by
  have h' : Sys2Proof.core.step s = .next u := h
  refine (run_unfold Sys2Proof.core k s).trans ?_
  rw [h']

/-- The first step of a run that reaches a next state. -/
theorem run_succ_next {k : Nat} {s t : State} (h : Host.Core.run Sys2Proof.core (k + 1) s = .next t) :
    ∃ u, step s = .next u ∧ Host.Core.run Sys2Proof.core k u = .next t := by
  replace h := (run_unfold Sys2Proof.core k s).symm.trans h
  cases hs : Sys2Proof.core.step s with
  | next u => rw [hs] at h; exact ⟨u, hs, h⟩
  | fault r => rw [hs] at h; cases h
  | refused r => rw [hs] at h; cases h

end Sys2Proof.Machine
end

