-- ==== Sys2Proof/Tests/Slice0.lean ====
section
/-! SUPPORT. Small tests of the model against spec/, and for every statement that has hypotheses a concrete state and
operands that meet them. Expected values are the spec's own: its rules, its examples, spec/95_test_vectors.md. -/

namespace Sys2Proof.Tests

open Sys2Proof.Machine

/-! ### Well-formedness: one ill-formed term for each check -/

/-- 30_encoding.md R63: LEN 0..8 are legal, 9..15 are not. -/
theorem test_wellFormed_absorb :
    (Instr.absorb 0 0).wellFormed = true ∧ (Instr.absorb 8 0).wellFormed = true ∧
    (Instr.absorb 9 0).wellFormed = false ∧ (Instr.absorb 15 0).wellFormed = false := by decide

/-- 30_encoding.md R64: IDX 0 and 1 are legal for READ_PARAM, 2..7 are not. -/
theorem test_wellFormed_readParam :
    (Instr.readParam 0).wellFormed = true ∧ (Instr.readParam 1).wellFormed = true ∧
    (Instr.readParam 2).wellFormed = false ∧ (Instr.readParam 7).wellFormed = false := by decide

/-- 30_encoding.md R64: every IDX is legal for READ_DIGEST. -/
theorem test_wellFormed_rest :
    Instr.init.wellFormed = true ∧ Instr.finalize.wellFormed = true ∧ (Instr.readDigest 0).wellFormed = true ∧
    (Instr.readDigest 7).wellFormed = true := by decide

/-! ### Decoding: words written bit by bit from 30_encoding.md R60, OP LEN RSV IDX -/

theorem test_decode_init : decode ⟨0b0001_0000_000000000000000000000_000, 0⟩ = .ok .init := by decide
theorem test_decode_absorb : decode ⟨0b0010_0011_000000000000000000000_000, 0x616263ffffffffff⟩ =
    .ok (.absorb 3 0x616263ffffffffff) := by decide
theorem test_decode_finalize : decode ⟨0b0011_0000_000000000000000000000_000, 0⟩ = .ok .finalize := by decide
theorem test_decode_readDigest : decode ⟨0b0100_0000_000000000000000000000_101, 0⟩ = .ok (.readDigest 5) := by decide
theorem test_decode_readParam : decode ⟨0b0101_0000_000000000000000000000_001, 0⟩ = .ok (.readParam 1) := by decide

/-- One word for each condition of 30_encoding.md R66. -/
theorem test_decode_illegal :
    decode ⟨0x00000000, 0⟩ = .error .reservedOp ∧ decode ⟨0x60000000, 0⟩ = .error .reservedOp ∧
    decode ⟨0xF0000000, 0⟩ = .error .reservedOp ∧ decode ⟨0x30000008, 0⟩ = .error .rsvNotZero ∧
    decode ⟨0x40800000, 0⟩ = .error .rsvNotZero ∧ decode ⟨0x11000000, 0⟩ = .error .lenNotZero ∧
    decode ⟨0x41000000, 0⟩ = .error .lenNotZero ∧ decode ⟨0x58000000, 0⟩ = .error .lenNotZero ∧
    decode ⟨0x29000000, 0⟩ = .error .lenTooLarge ∧ decode ⟨0x2F000000, 0⟩ = .error .lenTooLarge ∧
    decode ⟨0x10000001, 0⟩ = .error .idxNotZero ∧ decode ⟨0x20000001, 0⟩ = .error .idxNotZero ∧
    decode ⟨0x30000004, 0⟩ = .error .idxNotZero ∧ decode ⟨0x50000002, 0⟩ = .error .idxTooLarge := by decide

/-- The table's numbering: CMD is bits 31..0 of the word, DATA_IN bits 95..32 (log 13). -/
theorem test_decodeTableWord :
    decodeTableWord 32 0x30000000 = some .finalize ∧ decodeTableWord 32 0x28000000 = some (.absorb 8 0) ∧
    decodeTableWord 96 (0x6162630000000000 * 2 ^ 32 + 0x23000000) = some (.absorb 3 0x6162630000000000) ∧
    decodeTableWord 32 0x29000000 = none := by decide

/-! ### Steps -/

/-- The next state of an answer, to compare by decision. -/
def nextOf : Answer → Option State
  | .next t => some t
  | .fault _ => none
  | .refused _ => none

/-- The refusal of an answer. -/
def refusalOf : Answer → Option Refusal
  | .next _ => none
  | .fault _ => none
  | .refused r => some r

theorem test_defaultConfig_accepted : configAccepted defaultConfig = true := by decide +kernel

/-- A table that is no bijection. -/
def zeroSbox : Sbox := Vector.replicate 16 (Vector.replicate 16 0)

/-- 40_sbox_and_round_constants.md R103. -/
theorem test_step_refuses_constant_sbox :
    refusalOf (step { State.reset with cfg := { defaultConfig with sbox := zeroSbox } }) = some .sboxNotPermutation := by
  decide +kernel

/-- The state with phase FINAL and a recognisable digest. -/
def finalState : State := { State.reset with h := #v[1, 2, 3, 4, 5, 6, 7, 0x0807060504030201], phase := .final, cnt := 24 }

/-- n bytes 0x61 absorbed into the zero chaining value, n ≤ 63. -/
def partState (n : Nat) : State :=
  { State.reset with buf := List.replicate n 0x61, pos := BitVec.ofNat 6 n, cnt := BitVec.ofNat 256 (8 * n) }

/-- The counter eight below 2^256, which 8·LEN passes for LEN ≥ 1, and the 63 buffered bytes that go with it. -/
def fullState (p : OverflowPolicy) : State :=
  { partState 63 with cnt := BitVec.ofNat 256 (2 ^ 256 - 8), cfg := { defaultConfig with overflowPolicy := p } }

/-- withFetchWord puts the word where the next step takes its instruction from; 45_control_commands.md R201, example. -/
theorem test_step_withFetchWord :
    nextOf (step (State.reset.withFetchWord 32 0x50000001)) =
      some { State.reset with cmd := 0x50000001, dataOut := 0x40, status := 0 } := by decide +kernel

/-- 45_control_commands.md R200: INIT leaves FINAL with the reset values. -/
theorem test_init_leaves_final :
    nextOf (exec .init { finalState with dataOut := 5 }) = some { State.reset with dataOut := 0 } := by decide

/-- 43_streaming_absorb.md R160, example. -/
theorem test_absorb_abc :
    nextOf (exec (.absorb 3 0x616263ffffffffff) State.reset) =
      some { State.reset with cnt := 24, buf := [0x61, 0x62, 0x63], pos := 3 } := by decide

/-- spec/95_test_vectors.md section 3.4: round 2 of COMPRESS(0, 0). -/
theorem test_round_two :
    roundStep defaultConfig
      { kr := #v[0x003bdef09fa01957, 0x1818181818181818, 0x1818181818181818, 0x1818181818181818, 0x1818181818181818,
                 0x1818181818181818, 0x1818181818181818, 0x1818181818181818]
        st := #v[0x2813f6d8b788317f, 0x3030303030303030, 0x3030303030303030, 0x3030303030303030, 0x3030303030303030,
                 0x3030303030303030, 0x3030303030303030, 0x3030303030303030] } 2 =
      { kr := #v[0x2ebbcfe864728c4f, 0x1d8b1d1d1d1d1d1d, 0x1d1d7f1d1d1d1d1d, 0x1d1d1d161d1d1d1d, 0x1d1d1d1d8a1d1d1d,
                 0x1d1d1d1d1db21d1d, 0x1d1d1d1d1d1de01d, 0x1d1d1d1d1d1d1dd9]
        st := #v[0x1152bc6810808b61, 0x5962aab21b8780da, 0x1071c89d90cf947d, 0x91a1e5961be727b3, 0xbc381d778ccf6047,
                 0x22420373b56027fd, 0x74f488e8628fda47, 0x220baa2d4cd77483] } := by decide +kernel

/-- spec/95_test_vectors.md P3: the eighth ABSORB of a×64 compresses the block and empties the buffer. -/
theorem test_absorb_fills_block :
    exec (.absorb 8 0x6161616161616161) (partState 56) =
      .next { State.reset with
        cnt := 512, h := compress defaultConfig zeroBlock (loadBlock (List.replicate 64 0x61)) } := by
  change Host.Outcome.next (responded .ok 0 (absorbed 8 0x6161616161616161 (partState 56))) = _
  rw [absorbed, appendBytes_of_full _ rfl rfl]
  rfl

/-- spec/95_test_vectors.md P2: the digest of "abc". -/
theorem test_finalize_abc :
    finalH { State.reset with cnt := 24, buf := [0x61, 0x62, 0x63], pos := 3 } =
      #v[0x051fe2694a6c2279, 0x71667a1061a8a6a4, 0xa16d9505acd44051, 0xd73d16d9d3e5d2d1, 0x7d71fe3876f54ce4,
        0x338c9b1306b939af, 0xaaacb1b84bd32bca, 0x46d4f187e5b50b90] := by decide +kernel

/-- 60_exceptions.md R302: FINALIZE is terminal. -/
theorem test_finalize_twice : nextOf (exec .finalize finalState) = some { finalState with status := 2 } := by decide

/-- 44_finalization.md R186. -/
theorem test_readDigest_word :
    nextOf (exec (.readDigest 7) finalState) = some { finalState with dataOut := 0x0807060504030201 } := by decide

/-- 60_exceptions.md R303. -/
theorem test_readDigest_notFinal :
    nextOf (exec (.readDigest 0) { State.reset with dataOut := 9 }) = some { State.reset with status := 3 } := by decide

/-- 45_control_commands.md R201. -/
theorem test_readParam_two : nextOf (exec (.readParam 2) finalState) = some { finalState with status := 1 } := by decide

/-- 60_exceptions.md R305, example: an ABSORB with LEN = 9 in PHASE = FINAL reports ILLEGAL. -/
theorem test_priority_illegal_first :
    priorityStatus ⟨0x29000000, 0⟩ finalState = .illegal ∧ priorityStatus ⟨0x21000000, 0⟩ finalState = .finalized ∧
    priorityStatus ⟨0x21000000, 0⟩ (fullState .reject) = .counterOverflow ∧
    priorityStatus ⟨0x21000000, 0⟩ (fullState .wrap) = .ok := by decide

/-- 44_finalization.md R183, corner case: CNT = 24 under LOW64. -/
theorem test_lengthField_low64 : lengthField .low64 24 = List.replicate 31 0 ++ [0xC0] := by decide

/-- 44_finalization.md R183, example: CNT = 5·2^192 under HIGH64. -/
theorem test_lengthField_high64 :
    lengthField .high64 (BitVec.ofNat 256 (5 * 2 ^ 192)) = List.replicate 31 0 ++ [0x28] := by decide

/-- 42_round_and_compression.md R140, example. -/
theorem test_subPerm_example :
    subPerm defaultSbox (blockOfFn fun i => if i = 1 then 0x00ff000000000000 else 0) =
      blockOfFn fun i => if i = 2 then 0x1886181818181818 else 0x1818181818181818 := by decide +kernel

/-- 41_gf_multiplier_and_diffusion.md R124, example. -/
theorem test_diffuse_example :
    diffuse .right (blockOfFn fun i => if i = 0 then 0x0100000000000000 else 0) =
      #v[0x0100000000000000, 0x0900000000000000, 0x0200000000000000, 0x0500000000000000, 0x0800000000000000,
        0x0100000000000000, 0x0400000000000000, 0x0100000000000000] := by decide +kernel

/-- 30_encoding.md R68: a hexadecimal operand, a decimal one, and what the text layout refuses (log 17). -/
theorem test_assembleLine :
    assembleLine "absorb 3, 0x6162630000000000 ; abc".toList = some [⟨0x23000000, 0x6162630000000000⟩] ∧
    assembleLine "read_digest 8".toList = none ∧ assembleLine "nop".toList = none := by decide

/-- 30_encoding.md R69: absorb_bytes of nine bytes and of none. -/
theorem test_absorbBytes :
    absorbBytes [1, 2, 3, 4, 5, 6, 7, 8, 9] = [.absorb 8 0x0102030405060708, .absorb 1 0x0900000000000000] ∧
    absorbBytes [] = [.absorb 0 0] := by decide

/-! ### Witnesses: states and operands that meet the hypotheses of the statements -/

/-- A state of the default configuration with these events to come. -/
def withHost (s : State) (es : List HostEvent) : State := { s with host := es }

theorem test_witness_ResetEventSetsResetValues :
    configAccepted (withHost finalState [.reset]).cfg = true ∧ (withHost finalState [.reset]).host = .reset :: [] := by
  decide +kernel

/-- Words with OP = 0x1 that are no INIT, in IDX, in LEN and in RSV. -/
theorem test_witness_InitStartsNewComputation :
    ((0x10000001#32).extractLsb' 28 4 = 0x1#4 ∧ 0x10000001#32 ≠ 0x10000000#32) ∧
    ((0x11000000#32).extractLsb' 28 4 = 0x1#4 ∧ 0x11000000#32 ≠ 0x10000000#32) ∧
    (0x10800000#32).extractLsb' 28 4 = 0x1#4 ∧ 0x10800000#32 ≠ 0x10000000#32 := by decide

theorem test_witness_ResetEqualsInit :
    configAccepted (withHost finalState [.reset]).cfg = true ∧ (withHost finalState [.reset]).host = .reset :: [] ∧
    (partState 5).cfg = (withHost finalState [.reset]).cfg := by decide +kernel

/-- The least and the greatest index that is no parameter, and a word with OP = 0x5 that is no READ_PARAM. -/
theorem test_witness_ReadParamReturnsSizes :
    (0#3 = 0 ∨ 0#3 = 1) ∧ (1#3 = 0 ∨ 1#3 = 1) ∧ (2#3 ≠ 0 ∧ 2#3 ≠ 1) ∧ (7#3 ≠ 0 ∧ 7#3 ≠ 1) ∧
    (0x50000002#32).extractLsb' 28 4 = 0x5#4 ∧ 0x50000002#32 ≠ 0x50000000#32 ∧ 0x50000002#32 ≠ 0x50000001#32 := by decide

theorem test_witness_ReadDigestReturnsWord :
    finalState.phase = .final ∧ State.reset.phase = .absorbing ∧
    (0x40000008#32).extractLsb' 28 4 = 0x4#4 ∧ 0x40000008#32 &&& 0xFFFFFFF8#32 ≠ 0x40000000#32 := by decide

theorem test_witness_DigestBytesAreBigEndian : finalState.phase = .final := rfl

theorem test_witness_ReadsHaveNoSideEffect :
    (∃ idx, Instr.readDigest 7 = .readDigest idx) ∧ ∃ idx, Instr.readParam 7 = .readParam idx := ⟨⟨7, rfl⟩, ⟨7, rfl⟩⟩

/-- POS = len(BUF) in a state for each branch: LEN = 9; FINAL; overflow; 63 bytes, which stay; 64, which fill the block; and 66,
which cross it. -/
theorem test_witness_AbsorbAppendsChunk :
    (∀ s ∈ [State.reset, finalState, fullState .reject, fullState .wrap, partState 62, partState 63],
      s.pos.toNat = s.buf.length) ∧
    8 < (9#4).toNat ∧ finalState.phase = .final ∧ 2 ^ 256 ≤ (fullState .reject).cnt.toNat + 8 * (1#4).toNat ∧
    (partState 62).buf.length + (1#4).toNat < 64 ∧ ¬ (partState 62).buf.length + (2#4).toNat < 64 ∧
    ¬ (partState 62).buf.length + (4#4).toNat < 64 ∧
    (0x20000001#32).extractLsb' 28 4 = 0x2#4 ∧ 0x20000001#32 &&& 0xF0FFFFFF#32 ≠ 0x20000000#32 ∧
    (0x29000000#32).extractLsb' 28 4 = 0x2#4 ∧ 8 < ((0x29000000#32).extractLsb' 24 4).toNat := by decide

theorem test_witness_AbsorbTakesLeadingBytes :
    (0#4).toNat ≤ 8 ∧ (8#4).toNat ≤ 8 ∧
    ∀ t, t < (3#4).toNat → t < 8 →
      (0x616263ffffffffff#64).extractLsb' (56 - 8 * t) 8 = (0x6162630000000000#64).extractLsb' (56 - 8 * t) 8 := by decide

theorem test_witness_EmptyAbsorbIsNoOp : (fullState .reject).phase = .absorbing ∧ finalState.phase = .final := ⟨rfl, rfl⟩

theorem test_witness_CounterOverflowFollowsPolicy :
    (1#4).toNat ≤ 8 ∧ (fullState .reject).phase = .absorbing ∧ (fullState .wrap).phase = .absorbing ∧
    2 ^ 256 ≤ (fullState .reject).cnt.toNat + 8 * (1#4).toNat ∧ 2 ^ 256 ≤ (fullState .wrap).cnt.toNat + 8 * (1#4).toNat ∧
    (fullState .reject).cfg.overflowPolicy = .reject ∧ (fullState .wrap).cfg.overflowPolicy = .wrap ∧
    nextOf (exec (.absorb 0 0) (fullState .wrap)) = some (fullState .wrap) := by decide

/-- "abc" in one chunk and in three (spec/95_test_vectors.md P2). -/
def abcOne : List (BitVec 4 × Word) := [(3, 0x616263ffffffffff)]
def abcThree : List (BitVec 4 × Word) := [(1, 0x6100000000000000), (0, 0), (2, 0x6263000000000000)]

theorem test_witness_ChunkSplitDoesNotMatter :
    State.reset.phase = .absorbing ∧ (∀ x ∈ abcOne, x.1.toNat ≤ 8) ∧ (∀ y ∈ abcThree, y.1.toNat ≤ 8) ∧
    abcOne.flatMap (fun x => chunk x.1 x.2) = abcThree.flatMap (fun y => chunk y.1 y.2) ∧
    State.reset.cnt.toNat + 8 * (abcOne.flatMap fun x => chunk x.1 x.2).length < 2 ^ 256 := by
  refine ⟨rfl, ?_, ?_, by decide, by decide⟩ <;> simp [abcOne, abcThree]

theorem test_witness_FinalizeCompressesPaddedBlocks :
    (∀ n ∈ [0, 31, 32, 63], (partState n).pos.toNat = (partState n).buf.length) ∧
    finalState.pos.toNat = finalState.buf.length ∧ finalState.phase = .final ∧
    (0x30000001#32).extractLsb' 28 4 = 0x3#4 ∧ 0x30000001#32 ≠ 0x30000000#32 := by decide

theorem test_witness_BlockCountDependsOnPos :
    (partState 31).buf.length ≤ 31 ∧ 32 ≤ (partState 32).buf.length ∧ (partState 32).buf.length ≤ 63 ∧
    32 ≤ (partState 63).buf.length ∧ (partState 63).buf.length ≤ 63 := by decide

theorem test_witness_LoadBlockIsBigEndian : (List.replicate 64 (0x61 : Byte)).length = 64 := rfl

theorem test_witness_NonBijectiveSboxRefused : ¬ Function.Bijective (substitute zeroSbox) := by
  intro h
  have h01 : substitute zeroSbox 0 = substitute zeroSbox 1 := by decide
  exact absurd (h.1 h01) (by decide)

theorem test_witness_RoundConstantsPackTable : (1 : Fin 11) ≠ 0 ∧ (10 : Fin 11) ≠ 0 := by decide

/-- Two blocks with equal column 0 that differ in column 7, and chaining values likewise. -/
theorem test_witness_DiffuseKeepsColumns :
    (∀ k : Fin 8, byte zeroBlock[k] 0 = byte (blockOfFn fun _ => 1)[k] 0) ∧ zeroBlock ≠ blockOfFn fun _ => 1 := by decide

theorem test_witness_CompressKeepsColumns :
    (∀ k : Fin 8, byte zeroBlock[k] 0 = byte (blockOfFn fun _ => 1)[k] 0) ∧
    ∀ k : Fin 8, byte finalState.h[k] 0 = byte (finalState.h.set 7 0x0800000000000000)[k] 0 := by decide

theorem test_witness_SubPermIsBijection : sboxIsPermutation defaultSbox = true := test_defaultConfig_accepted

theorem test_witness_EncodeDecodeRoundTrip :
    (∀ i ∈ [Instr.init, .absorb 0 5, .absorb 8 5, .finalize, .readDigest 7, .readParam 1], i.wellFormed = true) ∧
    decode ⟨0x28000000, 5⟩ = .ok (.absorb 8 5) := by decide

theorem test_witness_DecodeFollowsOpcodeMap :
    decode ⟨0x28000000, 5⟩ = .ok (.absorb 8 5) ∧
    (∃ r ∈ opcodeMap, r.accepts 0x28000000 = true) ∧ ∃ r ∈ opcodeMap, r.accepts 0x50000001 = true := by decide

theorem test_witness_IllegalWordsRejected : ∃ e, decode ⟨State.reset.cmd, State.reset.dataIn⟩ = .error e :=
  ⟨.reservedOp, by decide⟩

theorem test_witness_StepRunsDecodedCommand :
    let s := withHost State.reset [.command ⟨0x28000000, 5⟩, .reset]
    configAccepted s.cfg = true ∧ s.host = .command ⟨0x28000000, 5⟩ :: [.reset] ∧
    decode ⟨0x28000000, 5⟩ = .ok (.absorb 8 5) := by decide +kernel

theorem test_witness_IdleEngineHolds : configAccepted State.reset.cfg = true ∧ State.reset.host = [] :=
  ⟨test_defaultConfig_accepted, rfl⟩

/-- The word 0 in CMD is illegal. -/
theorem test_witness_RejectionChangesNothing :
    nextOf (runCommand State.reset) = some { State.reset with status := 1 } ∧ ({ State.reset with status := 1 } : State).status ≠ 0 := by
  decide

theorem test_witness_FinalizedUntilInit :
    finalState.phase = .final ∧ (0#4).toNat ≤ 8 ∧ (8#4).toNat ≤ 8 ∧
    nextOf (exec .init finalState) = some State.reset ∧ nextOf (exec .finalize finalState) = some { finalState with status := 2 } := by
  decide

theorem test_witness_DigestStaysUntilInit :
    let s := withHost finalState [.command ⟨0x40000007, 0⟩, .command ⟨0x30000000, 0⟩, .reset]
    s.phase = .final ∧ (∀ e ∈ s.host.take 2, e ≠ .reset ∧ ∀ d, e ≠ .command ⟨0x10000000, d⟩) ∧
    nextOf (Host.Core.run Sys2Proof.core 2 s) = some
      { withHost finalState [.reset] with cmd := 0x30000000, dataOut := 0, status := 2 } := by
  refine ⟨rfl, ?_, by decide +kernel⟩
  intro e he
  simp only [withHost, List.take_succ_cons, List.take_zero, List.mem_cons, List.not_mem_nil, or_false] at he
  rcases he with rfl | rfl <;> exact ⟨by decide, fun d h => by injection h with h; injection h with h _; revert h; decide⟩

/-- Both ways for PHASE to change. -/
theorem test_witness_PhaseWrittenOnlyByFinalizeAndInit :
    (∃ t, step (withHost State.reset [.command ⟨0x30000000, 0⟩]) = .next t ∧ State.reset.phase = .absorbing ∧
      t.phase = .final) ∧
    ∃ t, step (withHost finalState [.command ⟨0x10000000, 0⟩]) = .next t ∧ finalState.phase = .final ∧
      t.phase = .absorbing := by
  refine ⟨⟨_, step_of_command (i := .finalize) test_defaultConfig_accepted rfl (by decide), rfl, ?_⟩,
    ⟨_, step_of_command (i := .init) test_defaultConfig_accepted rfl (by decide), rfl, rfl⟩⟩
  exact finalized_phase _

theorem test_witness_CounterOnlyGrows :
    nextOf (step (withHost State.reset [.command ⟨0x23000000, 0x6162630000000000⟩])) =
      some { State.reset with cmd := 0x23000000, dataIn := 0x6162630000000000, cnt := 24, buf := [0x61, 0x62, 0x63],
                               pos := 3 } ∧
    State.reset.cfg.overflowPolicy = .reject := by decide +kernel

theorem test_witness_RomIsNeverWritten : nextOf (step (withHost finalState [.reset])) = some State.reset := by decide +kernel

theorem test_witness_AcceptedEngineNeverStops : configAccepted finalState.cfg = true := test_defaultConfig_accepted

/-- A state in the middle of a computation meets the invariant, and so does one in PHASE = FINAL; both step. -/
theorem test_witness_StepKeepsInvariant :
    (partState 63).Inv ∧ finalState.Inv ∧ nextOf (step (partState 63)) = some (partState 63) ∧
    nextOf (step finalState) = some finalState := by
  refine ⟨⟨test_defaultConfig_accepted, by decide, by decide, by decide, ⟨.ok, rfl⟩, by decide⟩,
    ⟨test_defaultConfig_accepted, by decide, by decide, by decide, ⟨.ok, rfl⟩, by decide⟩, by decide +kernel,
    by decide +kernel⟩

/-- A configuration other than the default. -/
theorem test_witness_ResetMeetsInvariant :
    configAccepted { sbox := defaultSbox, diffRotation := .left, lengthWindow := .low64, overflowPolicy := .wrap } = true :=
  test_defaultConfig_accepted

theorem test_witness_ContextDeterminesResponses :
    let s := withHost finalState [.command ⟨0x40000007, 0⟩]
    let u := { s with dataOut := 7, status := 3, cmd := 9, dataIn := 11 }
    s.context = u.context ∧ s.cfg = u.cfg ∧ s.host = u.host ∧ 1 ≤ s.host.length ∧
    nextOf (Host.Core.run Sys2Proof.core 1 s) = some { finalState with cmd := 0x40000007, dataOut := 0x0807060504030201 } := by
  decide +kernel

theorem test_witness_AssemblerFollowsTable :
    assembleLine "init".toList = some [⟨0x10000000, 0⟩] ∧ assembleLine "finalize".toList = some [⟨0x30000000, 0⟩] := by
  decide

theorem test_witness_HashCommandsComputeBulkDigest :
    let s := withHost finalState (hostProgram (hashCommands [0x61, 0x62, 0x63]) ++ [.reset])
    configAccepted s.cfg = true ∧ ([0x61, 0x62, 0x63] : List Byte).length < 2 ^ 253 ∧
    s.host = hostProgram (hashCommands [0x61, 0x62, 0x63]) ++ [.reset] := by
  refine ⟨test_defaultConfig_accepted, by decide, rfl⟩

/-- Two messages of nine bytes that differ in byte 0 only, which is in column 0. -/
theorem test_witness_DigestKeepsColumns :
    (1 :: List.replicate 8 0 : List Byte).length = (2 :: List.replicate 8 0 : List Byte).length ∧
    (∀ p : Nat, p % 8 ≠ (0 : Fin 8).val →
      (1 :: List.replicate 8 0 : List Byte)[p]? = (2 :: List.replicate 8 0 : List Byte)[p]?) ∧ (7 : Fin 8) ≠ 0 := by
  refine ⟨rfl, ?_, by decide⟩
  intro p hp
  cases p with
  | zero => exact absurd rfl hp
  | succ p => rfl

/-- One byte 0x18 in word 2, column 0; and the key that SUBPERM takes to it: SBOX(0x81) = 0 and SBOX(0x00) = 0x18
(40_sbox_and_round_constants.md R100). -/
theorem test_witness_KeyScheduleAndDiffusionDifferFromIso :
    byte (blockOfFn fun i => if i = 2 then 0x1800000000000000 else 0)[2] 0 ≠ 0 ∧
    (∀ i j : Fin 8, i ≠ 2 ∨ j ≠ 0 → byte (blockOfFn fun i => if i = 2 then 0x1800000000000000 else 0)[i] j = 0) ∧
    subPerm defaultSbox (blockOfFn fun i => if i = 2 then 0x0081818181818181 else 0x8181818181818181) =
      blockOfFn fun i => if i = 2 then 0x1800000000000000 else 0 := by decide +kernel

end Sys2Proof.Tests
end

section
/-! The port's obligations about a step and the command that the host issues (10_state.md R27, R32). -/

namespace Sys2Proof.Proofs

open Sys2Proof.Machine

/-- A step that finds a command next issues it on the port and runs it, legal or not (00_scope.md R9). -/
theorem step_eq_runCommand_issued {s : State} {c : Command} {rest : List HostEvent}
    (hc : configAccepted s.cfg = true) (hh : s.host = .command c :: rest) :
    step s = runCommand (issued c rest s) := by
  have takes : takeEvent s = runCommand (issued c rest s) := by simp only [takeEvent, hh]
  exact (if_pos hc).trans takes

/-- Settles O39: the state in which the command runs is the one that `issued` gives, and `step_of_command` says what a
word that decodes does there. -/
theorem stepRunsDecodedCommand : Obligations.StepRunsDecodedCommand := by
  intro s c rest hc hh
  exact ⟨step_eq_runCommand_issued hc hh, fun _ hd => step_of_command hc hh hd⟩

end Sys2Proof.Proofs
end

section
/-! The words that the decoder reads as INIT, FINALIZE and ABSORB (30_encoding.md R60, R62). -/

namespace Sys2Proof.Proofs

open Sys2Proof.Machine

/-- A command word that decodes is the word of the command it decodes to (30_encoding.md R60, R62). -/
theorem encode_cmd_of_decode {c : Command} {i : Instr} (h : decode c = .ok i) : (encode i).cmd = c.cmd := by
  obtain ⟨hr, hrow⟩ := (decode_ok_iff c i).mp h
  rw [← cmdWord_fields c.cmd hr]
  rcases hrow with ⟨ho, hl, hi, rfl⟩ | ⟨ho, hi, _, rfl⟩ | ⟨ho, hl, hi, rfl⟩ | ⟨ho, hl, rfl⟩ | ⟨ho, hl, _, rfl⟩
  · rw [ho, hl, hi]; rfl
  · rw [ho, hi]; rfl
  · rw [ho, hl, hi]; rfl
  · rw [ho, hl]; rfl
  · rw [ho, hl]; rfl

theorem command_of_decode_init {c : Command} (h : decode c = .ok .init) : c = ⟨0x10000000, c.dataIn⟩ :=
  congrArg (Command.mk · c.dataIn) (encode_cmd_of_decode h).symm

theorem command_of_decode_finalize {c : Command} (h : decode c = .ok .finalize) : c = ⟨0x30000000, c.dataIn⟩ :=
  congrArg (Command.mk · c.dataIn) (encode_cmd_of_decode h).symm

theorem fieldOp_of_decode_absorb {c : Command} {len : BitVec 4} {d : Word} (h : decode c = .ok (.absorb len d)) :
    fieldOp c.cmd = 2#4 := by
  rw [← encode_cmd_of_decode h]
  exact fieldOp_cmdWord 2 len 0

end Sys2Proof.Proofs
end

section
/-! The invariant of the engine: it holds at reset, each operation that a command is made of keeps it, and so every step
keeps it (10_state.md R21, R22; 44_finalization.md R185; 60_exceptions.md R300). -/

namespace Sys2Proof.Proofs

open Sys2Proof.Machine

/-- The values that reset and INIT give the registers meet the invariant. -/
theorem inv_of_reset_values {s : State} (hc : configAccepted s.cfg = true) (hb : s.buf = []) (hp : s.pos = 0)
    (hn : s.cnt = 0) (hs : s.status = statusCode .ok) : s.Inv where
  sboxPermutation := hc
  posIsLength := by simp [hb, hp]
  countMatches _ := by simp [hb, hn]
  finalEmpty _ := hb
  statusProduced := ⟨.ok, hs⟩
  rejectedZero hne := absurd hs hne

theorem inv_resetWith {cfg : Config} (h : configAccepted cfg = true) : (State.resetWith cfg).Inv :=
  inv_of_reset_values h rfl rfl rfl rfl

/-- The default table is a bijection (40_sbox_and_round_constants.md R103). -/
theorem configAccepted_defaultConfig : configAccepted defaultConfig = true := by decide

/-- Settles O50: the reset values are those of `inv_of_reset_values`, and the default table is a bijection. -/
theorem resetMeetsInvariant : Obligations.ResetMeetsInvariant :=
  ⟨inv_resetWith configAccepted_defaultConfig, fun _ => inv_resetWith⟩

/-- Issuing a command writes no register that the invariant speaks of. -/
theorem inv_issued {s : State} (c : Command) (rest : List HostEvent) (h : s.Inv) : (issued c rest s).Inv where
  sboxPermutation := h.sboxPermutation
  posIsLength := h.posIsLength
  countMatches := h.countMatches
  finalEmpty := h.finalEmpty
  statusProduced := h.statusProduced
  rejectedZero := h.rejectedZero

/-- A response keeps the invariant when a status other than OK comes with DATA_OUT = 0. -/
theorem inv_responded {s : State} {st : Status} {d : Word} (hd : st ≠ .ok → d = 0) (h : s.Inv) :
    (responded st d s).Inv where
  sboxPermutation := h.sboxPermutation
  posIsLength := h.posIsLength
  countMatches := h.countMatches
  finalEmpty := h.finalEmpty
  statusProduced := ⟨st, rfl⟩
  rejectedZero hne := hd fun hst => hne (congrArg statusCode hst)

/-- A rejection and the response (OK, 0) both have DATA_OUT = 0. -/
theorem inv_responded_zero {s : State} (st : Status) (h : s.Inv) : (responded st 0 s).Inv :=
  inv_responded (fun _ => rfl) h

theorem absorbed_pos_eq_length {s : State} (len : BitVec 4) (d : Word) (h : s.pos.toNat = s.buf.length) :
    (absorbed len d s).pos.toNat = (absorbed len d s).buf.length :=
  appendBytes_keeps_pos (s := { s with cnt := counterNext s.cnt len }) (chunk len d) h

theorem absorbed_buf_length {s : State} {len : BitVec 4} (d : Word) (h : s.pos.toNat = s.buf.length)
    (hl : absorbLenLegal len = true) : (absorbed len d s).buf.length = (s.buf.length + len.toNat) % 64 := by
  rw [absorbed, appendBytes_buf_length (s := { s with cnt := counterNext s.cnt len }) (chunk len d) h,
    chunk_length d ((absorbLenLegal_iff len).mp hl)]

/-- The new CNT modulo 512, whether or not the sum wraps: 2^256 is a multiple of 512. -/
theorem counterNext_mod_block (cnt : BitVec 256) (len : BitVec 4) :
    (counterNext cnt len).toNat % 512 = (cnt.toNat + 8 * len.toNat) % 512 := by
  rw [counterNext_toNat, Nat.mod_mod_of_dvd _ (by decide)]

/-- ABSORB adds LEN bytes to the buffer modulo 64 and 8·LEN bits to the counter. -/
theorem inv_absorbed {s : State} {len : BitVec 4} (d : Word) (hl : absorbLenLegal len = true)
    (hp : s.phase = .absorbing) (h : s.Inv) : (absorbed len d s).Inv where
  sboxPermutation := by simpa using h.sboxPermutation
  posIsLength := absorbed_pos_eq_length len d h.posIsLength
  countMatches _ := by
    have hcnt := h.countMatches hp
    rw [absorbed_cnt, counterNext_mod_block, absorbed_buf_length d h.posIsLength hl]
    omega
  finalEmpty hf := by simp [hp] at hf
  statusProduced := by simpa using h.statusProduced
  rejectedZero := by simpa using h.rejectedZero

/-- FINALIZE leaves PHASE = FINAL with an empty buffer. -/
theorem inv_finalized {s : State} (h : s.Inv) : (finalized s).Inv where
  sboxPermutation := h.sboxPermutation
  posIsLength := rfl
  countMatches hp := by simp at hp
  finalEmpty _ := rfl
  statusProduced := h.statusProduced
  rejectedZero := h.rejectedZero

/-- Settles O49, by the cases of what a step to a next state did. -/
theorem stepKeepsInvariant : Obligations.StepKeepsInvariant := by
  intro s t hinv h
  rcases step_next_cases h with ⟨_, rfl⟩ | ⟨rest, _, rfl⟩ | ⟨c, rest, st, _, _, rfl⟩ | ⟨c, rest, _, _, rfl⟩ |
    ⟨c, rest, len, d, _, _, hl, hp, _, rfl⟩ | ⟨c, rest, _, _, _, rfl⟩ | ⟨c, rest, d, _, rfl⟩
  case inl => exact hinv
  case inr.inl => exact inv_of_reset_values hinv.sboxPermutation rfl rfl rfl rfl
  all_goals have hissued := inv_issued c rest hinv
  · exact inv_responded_zero st hissued
  · exact inv_of_reset_values hissued.sboxPermutation rfl rfl rfl rfl
  · exact inv_responded_zero .ok (inv_absorbed d hl hp hissued)
  · exact inv_responded_zero .ok (inv_finalized hissued)
  · exact inv_responded (fun hne => absurd rfl hne) hissued

end Sys2Proof.Proofs
end

section
/-! What a step writes: the ROM never, PHASE by FINALIZE and a restart only, CNT by ABSORB and a restart only
(10_state.md R23, R24, R26). -/

namespace Sys2Proof.Proofs

open Sys2Proof.Machine

/-- Settles O47, by the cases of what a step to a next state did. -/
theorem romIsNeverWritten : Obligations.RomIsNeverWritten := by
  intro s t h
  rcases step_next_cases h with ⟨_, rfl⟩ | ⟨_, _, rfl⟩ | ⟨_, _, _, _, _, rfl⟩ | ⟨_, _, _, _, rfl⟩ |
    ⟨_, _, _, _, _, _, _, _, _, rfl⟩ | ⟨_, _, _, _, _, rfl⟩ | ⟨_, _, _, _, rfl⟩ <;> simp

/-- The host's next event starts a new computation: a reset, or the word of INIT. -/
def RestartIsNext (s : State) : Prop :=
  ∃ rest, s.host = .reset :: rest ∨ ∃ d, s.host = .command ⟨0x10000000, d⟩ :: rest

theorem restartIsNext_of_decode_init {s : State} {c : Command} {rest : List HostEvent}
    (hh : s.host = .command c :: rest) (hd : decode c = .ok .init) : RestartIsNext s :=
  ⟨rest, .inr ⟨c.dataIn, by rw [hh, ← command_of_decode_init hd]⟩⟩

/-- What a step can do to PHASE: keep it, restart, or finalize. -/
theorem step_phase_cases {s t : State} (h : step s = .next t) :
    t.phase = s.phase ∨ (RestartIsNext s ∧ t.phase = .absorbing) ∨
    ((∃ d rest, s.host = .command ⟨0x30000000, d⟩ :: rest) ∧ t.phase = .final ∧ t.status = statusCode .ok) := by
  rcases step_next_cases h with ⟨_, rfl⟩ | ⟨rest, hh, rfl⟩ | ⟨_, _, _, _, _, rfl⟩ | ⟨_, _, hh, hd, rfl⟩ |
    ⟨_, _, _, _, _, _, _, _, _, rfl⟩ | ⟨c, rest, hh, hd, _, rfl⟩ | ⟨_, _, _, _, rfl⟩
  · exact .inl rfl
  · exact .inr (.inl ⟨⟨rest, .inl hh⟩, rfl⟩)
  · exact .inl rfl
  · exact .inr (.inl ⟨restartIsNext_of_decode_init hh hd, rfl⟩)
  · exact .inl (by simp)
  · exact .inr (.inr ⟨⟨c.dataIn, rest, by rw [hh, ← command_of_decode_finalize hd]⟩, rfl, rfl⟩)
  · exact .inl rfl

/-- Settles O45: of the three cases of `step_phase_cases`, each change of PHASE leaves one. -/
theorem phaseWrittenOnlyByFinalizeAndInit : Obligations.PhaseWrittenOnlyByFinalizeAndInit := by
  intro s t h
  rcases step_phase_cases h with hkeep | ⟨hrestart, habs⟩ | ⟨hword, hfin, hok⟩
  · exact ⟨fun hs ht => by simp [hkeep, hs] at ht, fun hs ht => by simp [hkeep, hs] at ht⟩
  · exact ⟨fun _ ht => by simp [habs] at ht, fun _ _ => hrestart⟩
  · exact ⟨fun _ _ => ⟨hword, hok⟩, fun _ ht => by simp [hfin] at ht⟩

/-- What a step can do to CNT: keep it, restart, or add the length of an accepted ABSORB. -/
theorem step_cnt_cases {s t : State} (h : step s = .next t) :
    t.cnt = s.cnt ∨ (RestartIsNext s ∧ t.cnt = 0) ∨
    (∃ c rest len, s.host = .command c :: rest ∧ fieldOp c.cmd = 2#4 ∧ counterRejects s.cfg s.cnt len = false ∧
      t.cnt = counterNext s.cnt len) := by
  rcases step_next_cases h with ⟨_, rfl⟩ | ⟨rest, hh, rfl⟩ | ⟨_, _, _, _, _, rfl⟩ | ⟨_, _, hh, hd, rfl⟩ |
    ⟨c, rest, len, _, hh, hd, _, _, hc, rfl⟩ | ⟨_, _, _, _, _, rfl⟩ | ⟨_, _, _, _, rfl⟩
  · exact .inl rfl
  · exact .inr (.inl ⟨⟨rest, .inl hh⟩, rfl⟩)
  · exact .inl rfl
  · exact .inr (.inl ⟨restartIsNext_of_decode_init hh hd, rfl⟩)
  · exact .inr (.inr ⟨c, rest, len, hh, fieldOp_of_decode_absorb hd, hc, by simp⟩)
  · exact .inl rfl
  · exact .inl rfl

/-- Under REJECT an ABSORB that is not rejected does not wrap the counter (43_streaming_absorb.md R161). -/
theorem cnt_le_counterNext {cfg : Config} {cnt : BitVec 256} {len : BitVec 4}
    (hc : counterRejects cfg cnt len = false) (hp : cfg.overflowPolicy = .reject) :
    cnt.toNat ≤ (counterNext cnt len).toNat := by
  have hfits : cnt.toNat + 8 * len.toNat < 2 ^ 256 := by
    by_contra hge
    have hrej := (counterRejects_iff cfg cnt len).mpr ⟨not_lt.mp hge, hp⟩
    simp [hc] at hrej
  rw [counterNext_toNat, Nat.mod_eq_of_lt hfits]
  exact Nat.le_add_right _ _

/-- Settles O46, by the cases of `step_cnt_cases`. -/
theorem counterOnlyGrows : Obligations.CounterOnlyGrows := by
  intro s t h
  rcases step_cnt_cases h with hkeep | ⟨hrestart, hzero⟩ | ⟨c, rest, len, hh, hop, hc, hnext⟩
  · exact ⟨.inl hkeep, fun _ => .inl (by rw [hkeep])⟩
  · exact ⟨.inr (.inr ⟨hrestart, hzero⟩), fun _ => .inr hrestart⟩
  · exact ⟨.inr (.inl ⟨c, rest, hh, hop⟩), fun hp => .inl (hnext ▸ cnt_le_counterNext hc hp)⟩

end Sys2Proof.Proofs
end

section
/-! The interface registers play no part in what a command does: no meaning reads the response that stands, and issuing a
command writes CMD and DATA_IN anew (10_state.md R27, R31). -/

namespace Sys2Proof.Proofs

open Sys2Proof.Machine

/-- s with another response standing. -/
def withResponse (st : BitVec 4) (d : Word) (s : State) : State := { s with status := st, dataOut := d }

theorem appendByte_withResponse (st : BitVec 4) (d : Word) (s : State) (x : Byte) :
    appendByte (withResponse st d s) x = withResponse st d (appendByte s x) := by
  have hpos : (withResponse st d s).pos = s.pos := rfl
  unfold appendByte
  rw [hpos, apply_ite (withResponse st d)]
  rfl

theorem appendBytes_withResponse (st : BitVec 4) (d : Word) (s : State) (bs : List Byte) :
    appendBytes (withResponse st d s) bs = withResponse st d (appendBytes s bs) := by
  induction bs generalizing s with
  | nil => rfl
  | cons b bs ih => exact (congrArg (appendBytes · bs) (appendByte_withResponse st d s b)).trans (ih _)

theorem absorbed_withResponse (len : BitVec 4) (x : Word) (st : BitVec 4) (d : Word) (s : State) :
    absorbed len x (withResponse st d s) = withResponse st d (absorbed len x s) :=
  appendBytes_withResponse st d { s with cnt := counterNext s.cnt len } (chunk len x)

/-- The response that ends a command overwrites the one that stood. -/
theorem responded_withResponse (r : Status) (e : Word) (st : BitVec 4) (d : Word) (s : State) :
    responded r e (withResponse st d s) = responded r e s := rfl

/-- No meaning reads the response that stands. -/
theorem exec_withResponse (i : Instr) (st : BitVec 4) (d : Word) (s : State) :
    exec i (withResponse st d s) = exec i s := by
  cases i with
  | init => rfl
  | absorb len x =>
    have hcomplete : complete 0 (absorbed len x (withResponse st d s)) = complete 0 (absorbed len x s) := by
      rw [complete, absorbed_withResponse, responded_withResponse, complete]
    change execAbsorb len x _ = execAbsorb len x s
    rw [execAbsorb, hcomplete]
    rfl
  | finalize => rfl
  | readDigest idx => rfl
  | readParam idx => rfl

theorem runCommand_withResponse (st : BitVec 4) (d : Word) (s : State) :
    runCommand (withResponse st d s) = runCommand s := by
  have hport : decode ⟨(withResponse st d s).cmd, (withResponse st d s).dataIn⟩ = decode ⟨s.cmd, s.dataIn⟩ := rfl
  rw [runCommand, runCommand, hport]
  cases decode ⟨s.cmd, s.dataIn⟩ with
  | error e => rfl
  | ok i => exact exec_withResponse i st d s

/-- Two states that differ at most in the interface registers CMD, DATA_IN, DATA_OUT and STATUS. -/
structure AgreeOffPort (s u : State) : Prop where
  /-- The contexts of 10_state.md R31. -/
  context : s.context = u.context
  /-- The ROM and the parameters. -/
  cfg : s.cfg = u.cfg
  /-- What the host has yet to do. -/
  host : s.host = u.host

theorem AgreeOffPort.refl (s : State) : AgreeOffPort s s := ⟨rfl, rfl, rfl⟩

/-- Once a command is issued, only the response that stands can still differ. -/
theorem AgreeOffPort.issued_eq {s u : State} (h : AgreeOffPort s u) (c : Command) (rest : List HostEvent) :
    issued c rest u = withResponse u.status u.dataOut (issued c rest s) := by
  obtain ⟨hctx, hcfg, _⟩ := h
  obtain ⟨hh, hbuf, hpos, hcnt, hphase⟩ := (context_eq_iff s u).mp hctx
  simp only [issued, withResponse, hh, hbuf, hpos, hcnt, hphase, hcfg]

/-- While the host has an event left, a step takes states that agree off the port to such states, with one response. -/
theorem AgreeOffPort.step_agrees {s u t : State} (h : AgreeOffPort s u) (hne : s.host ≠ []) (hs : step s = .next t) :
    ∃ v, step u = .next v ∧ AgreeOffPort t v ∧ t.response = v.response := by
  have hc : configAccepted s.cfg = true := by
    by_contra hn
    simp [step, hn] at hs
  have hcu : configAccepted u.cfg = true := h.cfg ▸ hc
  cases hh : s.host with
  | nil => exact absurd hh hne
  | cons e rest =>
    have hhu : u.host = e :: rest := h.host ▸ hh
    cases e with
    | reset =>
      rw [step_of_reset hc hh] at hs
      cases hs
      exact ⟨_, step_of_reset hcu hhu, ⟨rfl, h.cfg, rfl⟩, rfl⟩
    | command c =>
      have hstep : step u = step s := by
        rw [step_eq_runCommand_issued hcu hhu, h.issued_eq c rest, runCommand_withResponse,
          step_eq_runCommand_issued hc hh]
      exact ⟨t, hstep.trans hs, .refl t, rfl⟩

theorem observe_succ_of_next {s t : State} (k : Nat) (h : step s = .next t) :
    observe (k + 1) s = t.response :: observe k t := by
  rw [observe, h]

theorem observe_of_not_accepted {s : State} (k : Nat) (h : configAccepted s.cfg ≠ true) : observe k s = [] := by
  cases k with
  | zero => rfl
  | succ k => rw [observe, step, if_neg h]

/-- The events left after a step are enough for the steps left. -/
theorem step_host_length {s t : State} {k : Nat} (h : step s = .next t) (hk : k + 1 ≤ s.host.length) :
    k ≤ t.host.length := by
  rw [step_host h, List.length_tail]
  omega

theorem AgreeOffPort.observe_eq {k : Nat} {s u : State} (h : AgreeOffPort s u) (hk : k ≤ s.host.length) :
    observe k s = observe k u := by
  induction k generalizing s u with
  | zero => rfl
  | succ k ih =>
    by_cases hc : configAccepted s.cfg = true
    · obtain ⟨t, hs⟩ := step_answers_next hc
      obtain ⟨v, hu, hagree, hresp⟩ := h.step_agrees (List.ne_nil_of_length_pos (by omega)) hs
      rw [observe_succ_of_next k hs, observe_succ_of_next k hu, hresp, ih hagree (step_host_length hs hk)]
    · rw [observe_of_not_accepted _ hc, observe_of_not_accepted _ (h.cfg ▸ hc)]

theorem AgreeOffPort.run_agrees {k : Nat} {s u t : State} (h : AgreeOffPort s u) (hk : k ≤ s.host.length)
    (hs : Host.Core.run Sys2Proof.core k s = .next t) :
    ∃ v : State, Host.Core.run Sys2Proof.core k u = .next v ∧ AgreeOffPort t v := by
  induction k generalizing s u with
  | zero => cases hs; exact ⟨u, rfl, h⟩
  | succ k ih =>
    obtain ⟨s', hs', hrun⟩ := run_succ_next hs
    obtain ⟨u', hu', hagree, _⟩ := h.step_agrees (List.ne_nil_of_length_pos (by omega)) hs'
    obtain ⟨v, hv, hend⟩ := ih hagree (step_host_length hs' hk) hrun
    exact ⟨v, (run_succ k hu').trans hv, hend⟩

/-- Settles O51: step by step, the two runs agree off the port. -/
theorem contextDeterminesResponses : Obligations.ContextDeterminesResponses := by
  intro k s u hctx hcfg hhost hk
  have h : AgreeOffPort s u := ⟨hctx, hcfg, hhost⟩
  refine ⟨h.observe_eq hk, fun t hs => ?_⟩
  obtain ⟨v, hv, hend⟩ := h.run_agrees hk hs
  exact ⟨v, hv, hend.context.symm⟩

end Sys2Proof.Proofs
end

section
/-! Reads, the byte order of the digest and of a loaded block, and the leading bytes of an ABSORB (20_memory.md R41, R42,
R43, R48). -/

namespace Sys2Proof.Proofs

open Sys2Proof.Machine

/-- A read writes a response and nothing else (20_memory.md R48). -/
theorem exec_read_eq_responded {i : Instr} (s : State)
    (hi : (∃ idx, i = .readDigest idx) ∨ ∃ idx, i = .readParam idx) : ∃ st d, exec i s = .next (responded st d s) := by
  rcases hi with ⟨idx, rfl⟩ | ⟨idx, rfl⟩
  · rcases execReadDigest_cases idx s with ⟨_, h⟩ | ⟨_, h⟩ <;> exact ⟨_, _, h⟩
  · rcases execReadParam_cases idx s with ⟨_, h⟩ | ⟨_, h⟩ <;> exact ⟨_, _, h⟩

/-- Settles O7: a read ends in `responded`, and by `exec_withResponse` the next read does not see the response. -/
theorem readsHaveNoSideEffect : Obligations.ReadsHaveNoSideEffect := by
  intro s i hi
  obtain ⟨st, d, h⟩ := exec_read_eq_responded s hi
  exact ⟨_, h, rfl, (exec_withResponse i (statusCode st) d s).trans h⟩

theorem exec_readDigest_of_final {s : State} (idx : BitVec 3) (hp : s.phase = .final) :
    exec (.readDigest idx) s = .next (responded .ok (digestWord s.h idx) s) := by
  rcases execReadDigest_cases idx s with ⟨ha, _⟩ | ⟨_, h⟩
  · simp [hp] at ha
  · exact h

/-- Settles O6: READ_DIGEST i returns H[i], whose bytes are those of the digest by `digestBytes_getElem?`. -/
theorem digestBytesAreBigEndian : Obligations.DigestBytesAreBigEndian := fun s i j hp =>
  ⟨digestBytes_length s.h, digestBytes_getElem? s.h i j, _, exec_readDigest_of_final (.ofFin i) hp, rfl⟩

/-- Byte 8i+j of a 64-byte list is byte j of word i of the loaded block (20_memory.md R41). -/
theorem getElem?_eq_byte_loadBlock {b : List Byte} (hb : b.length = 64) (i j : Fin 8) :
    b[8 * i.val + j.val]? = some (byte (loadBlock b)[i] j) := by
  have hlt : 8 * i.val + j.val < b.length := by omega
  calc b[8 * i.val + j.val]?
    _ = some b[8 * i.val + j.val] := List.getElem?_eq_getElem hlt
    _ = some (b.getD (8 * i.val + j.val) 0) := by rw [List.getD_eq_getElem b 0 hlt]
    _ = some (byte (loadBlock b)[i] j) := congrArg some (byte_loadBlock b i i.isLt j).symm

/-- Two lists of 64 bytes are equal when they agree at every position 8i+j. -/
theorem list64_ext {a b : List Byte} (ha : a.length = 64) (hb : b.length = 64)
    (h : ∀ i j : Fin 8, a[8 * i.val + j.val]? = b[8 * i.val + j.val]?) : a = b := by
  apply List.ext_getElem?
  intro p
  by_cases hp : p < 64
  · have hij := h ⟨p / 8, by omega⟩ ⟨p % 8, by omega⟩
    rwa [Nat.div_add_mod] at hij
  · rw [List.getElem?_eq_none (by omega), List.getElem?_eq_none (by omega)]

/-- Settles O20: digest and list agree at every position 8i+j. -/
theorem loadBlockIsBigEndian : Obligations.LoadBlockIsBigEndian := by
  intro b hb
  refine ⟨getElem?_eq_byte_loadBlock hb, list64_ext (digestBytes_length _) hb fun i j => ?_⟩
  rw [digestBytes_getElem?, getElem?_eq_byte_loadBlock hb]

/-- The chunk depends on the first LEN bytes of DATA_IN only (20_memory.md R42). -/
theorem chunk_congr {len : BitVec 4} {d e : Word}
    (h : ∀ t, t < len.toNat → t < 8 → d.extractLsb' (56 - 8 * t) 8 = e.extractLsb' (56 - 8 * t) 8) :
    chunk len d = chunk len e := by
  apply List.ext_getElem?
  intro t
  rw [chunk_getElem?, chunk_getElem?]
  split
  case isTrue ht => rw [h t ht.1 ht.2]
  case isFalse => rfl

/-- ABSORB uses DATA_IN for its chunk only. -/
theorem exec_absorb_congr {len : BitVec 4} {d e : Word} (s : State) (h : chunk len d = chunk len e) :
    exec (.absorb len d) s = exec (.absorb len e) s := by
  change execAbsorb len d s = execAbsorb len e s
  rw [execAbsorb, execAbsorb, absorbed, absorbed, h]

/-- Settles O10, from `chunk_getElem?` and `chunk_congr`. -/
theorem absorbTakesLeadingBytes : Obligations.AbsorbTakesLeadingBytes := by
  refine ⟨fun len d t hl => ?_, fun s len d e h => exec_absorb_congr s (chunk_congr h)⟩
  have hbound : t < len.toNat ∧ t < 8 ↔ t < len.toNat := and_iff_left_of_imp fun ht => by omega
  simp only [chunk_getElem?, hbound]

end Sys2Proof.Proofs
end

section
/-! The byte-serial counter (20_memory.md R44; 43_streaming_absorb.md R161): adding byte by byte, from the least significant
byte, is adding the numbers. -/

namespace Sys2Proof.Proofs

open Sys2Proof.Machine

/-- The n low bytes of x, the least significant first: the order in which `addBytesCarry` takes them. -/
def lowBytes (n x : Nat) : List Byte := (List.range n).map fun k => BitVec.ofNat 8 (x / 256 ^ k)

theorem lowBytes_zero (x : Nat) : lowBytes 0 x = [] := rfl

theorem lowBytes_succ (n x : Nat) : lowBytes (n + 1) x = BitVec.ofNat 8 x :: lowBytes n (x / 256) := by
  simp [lowBytes, List.range_succ_eq_map, Nat.pow_succ', Nat.div_div_eq_div_mul]

/-- Bytes at and above position n play no part. -/
theorem lowBytes_mod (n x : Nat) : lowBytes n (x % 256 ^ n) = lowBytes n x := by
  induction n generalizing x with
  | zero => rfl
  | succ n ih =>
    have hhigh : x % 256 ^ (n + 1) / 256 = x / 256 % 256 ^ n := by
      rw [Nat.pow_succ', Nat.mod_mul_right_div_self]
    have hbyte : BitVec.ofNat 8 (x % 256 ^ (n + 1)) = BitVec.ofNat 8 x :=
      BitVec.eq_of_toNat_eq (by simp)
    rw [lowBytes_succ, lowBytes_succ, hbyte, hhigh, ih]

/-- Adding c byte by byte to x gives the bytes of x + c; what the n bytes cannot hold is the carry out. -/
theorem addBytesCarry_lowBytes (n x c : Nat) :
    addBytesCarry (lowBytes n x) c = (lowBytes n (x + c), (x % 256 ^ n + c) / 256 ^ n) := by
  induction n generalizing x c with
  | zero => simp [lowBytes_zero, addBytesCarry, Nat.mod_one]
  | succ n ih =>
    have hbyte : BitVec.ofNat 8 (x % 256 + c) = BitVec.ofNat 8 (x + c) :=
      BitVec.eq_of_toNat_eq (by simp)
    have hrest : x / 256 + (x % 256 + c) / 256 = (x + c) / 256 := by omega
    have hcarry : (x / 256 % 256 ^ n + (x % 256 + c) / 256) / 256 ^ n =
        (x % 256 ^ (n + 1) + c) / 256 ^ (n + 1) := by
      rw [Nat.pow_succ', Nat.mod_mul, ← Nat.div_div_eq_div_mul]
      congr 1
      omega
    have hlow : (BitVec.ofNat 8 x).toNat = x % 256 := BitVec.toNat_ofNat x 8
    simp only [lowBytes_succ, addBytesCarry, hlow, ih, hbyte, hrest, hcarry]

/-- Entry i of CNT_BYTES (20_memory.md R44). -/
theorem bytesOf256_getElem? (x : BitVec 256) {i : Nat} (h : i < 32) :
    (bytesOf256 x)[i]? = some (x.extractLsb' (248 - 8 * i) 8) := by
  simp [bytesOf256, h]

/-- CNT_BYTES from its last byte on is the low bytes of CNT (20_memory.md R44). -/
theorem bytesOf256_reverse (x : BitVec 256) : (bytesOf256 x).reverse = lowBytes 32 x.toNat := by
  apply List.ext_getElem
  · simp [lowBytes]
  · intro k hk _
    have hk32 : k < 32 := by simpa using hk
    have hshift : 248 - 8 * (31 - k) = 8 * k := by omega
    apply BitVec.eq_of_toNat_eq
    simp [bytesOf256, lowBytes, hshift, Nat.shiftRight_eq_div_pow, Nat.pow_mul]

theorem counterOverflows_eq_false_iff (cnt : BitVec 256) (len : BitVec 4) :
    counterOverflows cnt len = false ↔ cnt.toNat + 8 * len.toNat < 2 ^ 256 := by
  rw [counterOverflows, decide_eq_false_iff_not, not_le, counterSum]

/-- The byte-serial add of 8·LEN gives the bytes of the new CNT, and the carry out is the quotient by 2^256. -/
theorem addBytesCarry_bytesOf256 (cnt : BitVec 256) (len : BitVec 4) :
    addBytesCarry (bytesOf256 cnt).reverse (8 * len.toNat) =
      ((bytesOf256 (counterNext cnt len)).reverse, (cnt.toNat + 8 * len.toNat) / 2 ^ 256) := by
  have hpow : 256 ^ 32 = 2 ^ 256 := by norm_num
  rw [bytesOf256_reverse, bytesOf256_reverse, addBytesCarry_lowBytes, counterNext_toNat, ← hpow, lowBytes_mod, hpow,
    Nat.mod_eq_of_lt cnt.isLt]

/-- Settles O13, by `addBytesCarry_bytesOf256`. -/
theorem byteSerialCounterAgrees : Obligations.ByteSerialCounterAgrees := by
  intro cnt len
  refine ⟨bytesOf256_length cnt, fun i => bytesOf256_getElem? cnt, ?_, ?_⟩
  · rw [addBytesCarry_bytesOf256, List.reverse_reverse]
  · rw [addBytesCarry_bytesOf256, counterOverflows_eq_false_iff]
    exact Nat.div_eq_zero_iff_lt (by norm_num)

end Sys2Proof.Proofs
end

section
/-! The command encoding (30_encoding.md R60 to R66): the round trip of encoder and decoder, the opcode map, and the illegal
words. -/

namespace Sys2Proof.Proofs

open Sys2Proof.Machine

/-- The words of a well-formed command decode to it (30_encoding.md R60, R62). -/
theorem decode_encode {i : Instr} (h : i.wellFormed = true) : decode (encode i) = .ok i := by
  cases i with
  | init => exact Laws.RoundTrip.init h
  | absorb len d => exact Laws.RoundTrip.absorb len d h
  | finalize => exact Laws.RoundTrip.finalize h
  | readDigest idx => exact Laws.RoundTrip.readDigest idx h
  | readParam idx => exact Laws.RoundTrip.readParam idx h

/-- The decoder makes well-formed commands only (30_encoding.md R63, R64). -/
theorem wellFormed_of_decode {c : Command} {i : Instr} (h : decode c = .ok i) : i.wellFormed = true := by
  obtain ⟨_, hrow⟩ := (decode_ok_iff c i).mp h
  rcases hrow with ⟨_, _, _, rfl⟩ | ⟨_, _, hlen, rfl⟩ | ⟨_, _, _, rfl⟩ | ⟨_, _, rfl⟩ | ⟨_, _, hidx, rfl⟩
  · rfl
  · exact hlen
  · rfl
  · rfl
  · exact hidx

theorem dataIn_of_decode_absorb {c : Command} {len : BitVec 4} {d : Word} (h : decode c = .ok (.absorb len d)) :
    d = c.dataIn := by
  obtain ⟨_, hrow⟩ := (decode_ok_iff c _).mp h
  rcases hrow with ⟨_, _, _, hi⟩ | ⟨_, _, _, hi⟩ | ⟨_, _, _, hi⟩ | ⟨_, _, hi⟩ | ⟨_, _, _, hi⟩ <;> cases hi
  rfl

/-- Settles O35: `decode_encode` one way, and the other way what the decoder read stands in the command it made. -/
theorem encodeDecodeRoundTrip : Obligations.EncodeDecodeRoundTrip := by
  refine ⟨fun _ => decode_encode, fun c i h => ⟨wellFormed_of_decode h, encode_cmd_of_decode h, ?_⟩⟩
  rintro len d rfl
  exact dataIn_of_decode_absorb h

/-- A command word is its fields, one after the other (30_encoding.md R60). -/
theorem fields_append (cmd : BitVec 32) : fieldOp cmd ++ fieldLen cmd ++ fieldRsv cmd ++ fieldIdx cmd = cmd := by
  unfold fieldOp fieldLen fieldRsv fieldIdx
  rw [BitVec.extractLsb'_append_extractLsb'_eq_extractLsb' (show 28 = 24 + 4 from rfl),
    BitVec.extractLsb'_append_extractLsb'_eq_extractLsb' (show 24 = 3 + 21 from rfl),
    BitVec.extractLsb'_append_extractLsb'_eq_extractLsb' (show 3 = 0 + 3 from rfl)]
  exact BitVec.extractLsb'_eq_self

/-- Two command words are equal exactly when their four fields are (30_encoding.md R60). -/
theorem cmd_eq_iff_fields (a b : BitVec 32) :
    a = b ↔ fieldRsv a = fieldRsv b ∧ fieldOp a = fieldOp b ∧ fieldLen a = fieldLen b ∧ fieldIdx a = fieldIdx b := by
  refine ⟨fun h => by simp [h], fun ⟨hrsv, hop, hlen, hidx⟩ => ?_⟩
  rw [← fields_append a, ← fields_append b, hop, hlen, hrsv, hidx]

/-- A row of the opcode map tests the four fields one by one (30_encoding.md R62). -/
theorem accepts_iff_fields (r : OpcodeRow) (cmd : BitVec 32) :
    r.accepts cmd = true ↔
      fieldRsv cmd &&& fieldRsv r.mask = fieldRsv r.pattern ∧ fieldOp cmd &&& fieldOp r.mask = fieldOp r.pattern ∧
      fieldLen cmd &&& fieldLen r.mask = fieldLen r.pattern ∧ fieldIdx cmd &&& fieldIdx r.mask = fieldIdx r.pattern ∧
      r.lenLimit.all (fun n => (fieldLen cmd).toNat ≤ n) = true := by
  rw [OpcodeRow.accepts, Bool.and_eq_true, beq_iff_eq, cmd_eq_iff_fields]
  simp only [fieldOp, fieldLen, fieldRsv, fieldIdx, BitVec.extractLsb'_and, and_assoc]

/-- The fields that a command word of the mnemonic n has (30_encoding.md R60 to R64). -/
def HasFieldsOf (n : String) (cmd : BitVec 32) : Prop :=
  fieldRsv cmd = 0#21 ∧
    ((n = "INIT" ∧ fieldOp cmd = 1#4 ∧ fieldLen cmd = 0#4 ∧ fieldIdx cmd = 0#3) ∨
     (n = "ABSORB" ∧ fieldOp cmd = 2#4 ∧ fieldIdx cmd = 0#3 ∧ (fieldLen cmd).toNat ≤ 8) ∨
     (n = "FINALIZE" ∧ fieldOp cmd = 3#4 ∧ fieldLen cmd = 0#4 ∧ fieldIdx cmd = 0#3) ∨
     (n = "READ_DIGEST" ∧ fieldOp cmd = 4#4 ∧ fieldLen cmd = 0#4) ∨
     (n = "READ_PARAM" ∧ fieldOp cmd = 5#4 ∧ fieldLen cmd = 0#4 ∧ (fieldIdx cmd).toNat ≤ 1))

/-- A word decodes to a command of the mnemonic n exactly when it has that mnemonic's fields. -/
theorem decodes_iff_hasFieldsOf (c : Command) (n : String) :
    (∃ i, decode c = .ok i ∧ i.mnemonic = n) ↔ HasFieldsOf n c.cmd := by
  constructor
  · rintro ⟨i, hi, rfl⟩
    obtain ⟨hrsv, hrow⟩ := (decode_ok_iff c i).mp hi
    refine ⟨hrsv, ?_⟩
    rcases hrow with ⟨hop, hlen, hidx, rfl⟩ | ⟨hop, hidx, hlen, rfl⟩ | ⟨hop, hlen, hidx, rfl⟩ | ⟨hop, hlen, rfl⟩ |
      ⟨hop, hlen, hidx, rfl⟩
    · exact .inl ⟨rfl, hop, hlen, hidx⟩
    · exact .inr (.inl ⟨rfl, hop, hidx, (absorbLenLegal_iff _).mp hlen⟩)
    · exact .inr (.inr (.inl ⟨rfl, hop, hlen, hidx⟩))
    · exact .inr (.inr (.inr (.inl ⟨rfl, hop, hlen⟩)))
    · exact .inr (.inr (.inr (.inr ⟨rfl, hop, hlen, of_decide_eq_true hidx⟩)))
  · rintro ⟨hrsv, hrow⟩
    simp only [decode_ok_iff, hrsv, true_and]
    rcases hrow with ⟨rfl, hop, hlen, hidx⟩ | ⟨rfl, hop, hidx, hlen⟩ | ⟨rfl, hop, hlen, hidx⟩ | ⟨rfl, hop, hlen⟩ |
      ⟨rfl, hop, hlen, hidx⟩
    · exact ⟨_, .inl ⟨hop, hlen, hidx, rfl⟩, rfl⟩
    · exact ⟨_, .inr (.inl ⟨hop, hidx, (absorbLenLegal_iff _).mpr hlen, rfl⟩), rfl⟩
    · exact ⟨_, .inr (.inr (.inl ⟨hop, hlen, hidx, rfl⟩)), rfl⟩
    · exact ⟨_, .inr (.inr (.inr (.inl ⟨hop, hlen, rfl⟩))), rfl⟩
    · exact ⟨_, .inr (.inr (.inr (.inr ⟨hop, hlen, decide_eq_true hidx, rfl⟩))), rfl⟩

/-- The mask of READ_PARAM leaves IDX bit 0 free: indices 0 and 1. -/
theorem and_six_eq_zero_iff (idx : BitVec 3) : idx &&& 6#3 = 0#3 ↔ idx.toNat ≤ 1 := by
  revert idx; decide

/-- A row of the opcode map accepts exactly the words with the fields of its mnemonic. -/
theorem accepts_iff_hasFieldsOf {r : OpcodeRow} (hr : r ∈ opcodeMap) (cmd : BitVec 32) :
    r.accepts cmd = true ↔ HasFieldsOf r.mnemonic cmd := by
  have hrsv (x : BitVec 21) : x &&& 0x1FFFFF#21 = x := BitVec.and_allOnes
  have hnibble (x : BitVec 4) : x &&& 15#4 = x := BitVec.and_allOnes
  have hidx (x : BitVec 3) : x &&& 7#3 = x := BitVec.and_allOnes
  rw [accepts_iff_fields, HasFieldsOf]
  simp only [opcodeMap, List.mem_cons, List.not_mem_nil, or_false] at hr
  rcases hr with rfl | rfl | rfl | rfl | rfl
  · change fieldRsv cmd &&& 0x1FFFFF#21 = 0#21 ∧ fieldOp cmd &&& 15#4 = 1#4 ∧ fieldLen cmd &&& 15#4 = 0#4 ∧
      fieldIdx cmd &&& 7#3 = 0#3 ∧ true = true ↔ _
    simp [hnibble, hrsv, hidx]
  · change fieldRsv cmd &&& 0x1FFFFF#21 = 0#21 ∧ fieldOp cmd &&& 15#4 = 2#4 ∧ fieldLen cmd &&& 0#4 = 0#4 ∧
      fieldIdx cmd &&& 7#3 = 0#3 ∧ decide ((fieldLen cmd).toNat ≤ 8) = true ↔ _
    simp [hnibble, hrsv, hidx]
  · change fieldRsv cmd &&& 0x1FFFFF#21 = 0#21 ∧ fieldOp cmd &&& 15#4 = 3#4 ∧ fieldLen cmd &&& 15#4 = 0#4 ∧
      fieldIdx cmd &&& 7#3 = 0#3 ∧ true = true ↔ _
    simp [hnibble, hrsv, hidx]
  · change fieldRsv cmd &&& 0x1FFFFF#21 = 0#21 ∧ fieldOp cmd &&& 15#4 = 4#4 ∧ fieldLen cmd &&& 15#4 = 0#4 ∧
      fieldIdx cmd &&& 0#3 = 0#3 ∧ true = true ↔ _
    simp [hnibble, hrsv]
  · change fieldRsv cmd &&& 0x1FFFFF#21 = 0#21 ∧ fieldOp cmd &&& 15#4 = 5#4 ∧ fieldLen cmd &&& 15#4 = 0#4 ∧
      fieldIdx cmd &&& 6#3 = 0#3 ∧ true = true ↔ _
    simp [hnibble, hrsv, and_six_eq_zero_iff]

theorem mnemonic_mem_opcodeMap (i : Instr) : ∃ r ∈ opcodeMap, r.mnemonic = i.mnemonic := by
  cases i <;> simp [opcodeMap, Instr.mnemonic]

/-- No two rows of the opcode map have one mnemonic. -/
theorem opcodeMap_mnemonic_injective :
    ∀ r ∈ opcodeMap, ∀ q ∈ opcodeMap, r.mnemonic = q.mnemonic → r = q := by decide

/-- The words that a row of the opcode map accepts are those that decode to a command of the row's mnemonic
(30_encoding.md R62). -/
theorem accepts_iff_decodes {r : OpcodeRow} (hr : r ∈ opcodeMap) (c : Command) :
    r.accepts c.cmd = true ↔ ∃ i, decode c = .ok i ∧ i.mnemonic = r.mnemonic :=
  (accepts_iff_hasFieldsOf hr c.cmd).trans (decodes_iff_hasFieldsOf c r.mnemonic).symm

/-- Settles O36: by `accepts_iff_decodes` two rows that accept one word have one mnemonic, and the mnemonics of the rows
differ. -/
theorem decodeFollowsOpcodeMap : Obligations.DecodeFollowsOpcodeMap := by
  refine ⟨rfl, fun c i h => ?_, fun c r hr => (accepts_iff_decodes hr c).mp, fun cmd r q hr hq har haq => ?_⟩
  · obtain ⟨r, hr, hname⟩ := mnemonic_mem_opcodeMap i
    exact ⟨r, hr, (accepts_iff_decodes hr c).mpr ⟨i, h, hname.symm⟩, hname⟩
  · obtain ⟨i, hi, hir⟩ := (accepts_iff_decodes hr ⟨cmd, 0⟩).mp har
    obtain ⟨j, hj, hjq⟩ := (accepts_iff_decodes hq ⟨cmd, 0⟩).mp haq
    have hij : i = j := Except.ok.inj (hi.symm.trans hj)
    exact opcodeMap_mnemonic_injective r hr q hq (by rw [← hir, ← hjq, hij])

/-- The conditions of 30_encoding.md R66, read as a proposition. -/
theorem illegalWord_iff (cmd : BitVec 32) :
    illegalWord cmd = true ↔
      (fieldOp cmd = 0#4 ∨ 6 ≤ (fieldOp cmd).toNat) ∨ fieldRsv cmd ≠ 0#21 ∨
      (fieldLen cmd ≠ 0#4 ∧ fieldOp cmd ≠ 2#4) ∨ (8 < (fieldLen cmd).toNat ∧ fieldOp cmd = 2#4) ∨
      (fieldIdx cmd ≠ 0#3 ∧ (fieldOp cmd = 1#4 ∨ fieldOp cmd = 2#4 ∨ fieldOp cmd = 3#4)) ∨
      (1 < (fieldIdx cmd).toNat ∧ fieldOp cmd = 5#4) := by
  simp only [illegalWord, Bool.or_eq_true, Bool.and_eq_true, beq_iff_eq, bne_iff_ne, decide_eq_true_eq, or_assoc]

/-- OP is one of the five opcodes or reserved (30_encoding.md R62). -/
theorem op_cases (op : BitVec 4) :
    op = 1#4 ∨ op = 2#4 ∨ op = 3#4 ∨ op = 4#4 ∨ op = 5#4 ∨ op = 0#4 ∨ 6 ≤ op.toNat := by
  revert op; decide

/-- A word has the fields of some mnemonic exactly when none of R66's conditions holds: opcode by opcode. -/
theorem exists_hasFieldsOf_iff (cmd : BitVec 32) : (∃ n, HasFieldsOf n cmd) ↔ illegalWord cmd = false := by
  rw [← Bool.not_eq_true, illegalWord_iff]
  unfold HasFieldsOf
  rcases op_cases (fieldOp cmd) with hop | hop | hop | hop | hop | hop | hop
  · simp [hop]
  · simp [hop, and_comm]
  · simp [hop]
  · simp [hop]
  · simp [hop]
  · simp [hop]
  · have hne (k : BitVec 4) (hk : k.toNat < 6) : fieldOp cmd ≠ k := fun h => by rw [h] at hop; omega
    simp [hop, hne]

/-- The decoder refuses a word exactly when R66 calls it illegal. -/
theorem decode_error_iff_illegalWord (c : Command) : (∃ e, decode c = .error e) ↔ illegalWord c.cmd = true := by
  have hok : (∃ i, decode c = .ok i) ↔ illegalWord c.cmd = false := by
    rw [← exists_hasFieldsOf_iff]
    simp only [← decodes_iff_hasFieldsOf]
    exact ⟨fun ⟨i, hi⟩ => ⟨_, i, hi, rfl⟩, fun ⟨_, i, hi, _⟩ => ⟨i, hi⟩⟩
  rw [← Bool.not_eq_false, ← hok]
  cases decode c <;> simp

/-- An illegal word on the port is rejected with ILLEGAL (60_exceptions.md R301). -/
theorem runCommand_of_decode_error {s : State} {e : IllegalReason} (h : decode ⟨s.cmd, s.dataIn⟩ = .error e) :
    runCommand s = .next (responded .illegal 0 s) := by
  rw [runCommand, h]
  rfl

/-- Settles O37: the conditions are those of `illegalWord`, and the port rejects what the decoder refuses. -/
theorem illegalWordsRejected : Obligations.IllegalWordsRejected :=
  ⟨fun c => (decode_error_iff_illegalWord c).trans (illegalWord_iff c.cmd),
    fun _ ⟨_, h⟩ => runCommand_of_decode_error h⟩

/-- Settles O38: the decoder evaluated on the nine words. -/
theorem knownWordsDecode : Obligations.KnownWordsDecode := by
  unfold Obligations.KnownWordsDecode
  decide

end Sys2Proof.Proofs
end

section
/-! The host's side of the port (30_encoding.md R68, R69): the assembler, and the expansion of absorb_bytes. -/

namespace Sys2Proof.Proofs

open Sys2Proof.Machine

/-- A text of two lines that assemble gives the words of the first and then those of the second (30_encoding.md R68). -/
theorem assemble_pair {a b : List Char} {x y : List Command} (ha : assembleLine a = some x)
    (hb : assembleLine b = some y) : assemble [a, b] = some (x ++ y) := by
  simp [assemble, ha, hb]

/-- Settles O52: the seven lines are evaluated, and two lines are `assemble_pair`. -/
theorem assemblerFollowsTable : Obligations.AssemblerFollowsTable :=
  ⟨by decide, by decide, by decide, by decide, by decide, by decide, by decide, fun _ _ _ _ => assemble_pair⟩

/-- The chunk of a packed byte string is the string: `packChunk` undoes what ABSORB reads (30_encoding.md R69). -/
theorem chunk_packChunk {l : List Byte} (h : l.length ≤ 8) : chunk (BitVec.ofNat 4 l.length) (packChunk l) = l := by
  have hlen : (BitVec.ofNat 4 l.length).toNat = l.length := by simp; omega
  apply List.ext_getElem?
  intro t
  rw [chunk_getElem?, hlen]
  by_cases ht : t < l.length
  · have ht8 : t < 8 := by omega
    rw [if_pos ⟨ht, ht8⟩, List.getElem?_eq_getElem ht, ← List.getD_eq_getElem l 0 ht]
    exact congrArg some (byte_pack (fun j => l.getD j.val 0) ⟨t, ht8⟩)
  · rw [if_neg (fun hand => ht hand.1), List.getElem?_eq_none (not_lt.mp ht)]

/-- xs are the operands of ABSORBs that carry the bytes m in full chunks of 8 and a rest (30_encoding.md R69). -/
structure ChunksOf (m : List Byte) (xs : List (BitVec 4 × Word)) : Prop where
  /-- The chunks give the bytes back. -/
  concat : xs.flatMap (fun x => chunk x.1 x.2) = m
  /-- There are ⌈n/8⌉ of them. -/
  count : xs.length = (m.length + 7) / 8
  /-- Every LEN is legal. -/
  legal : ∀ x ∈ xs, x.1.toNat ≤ 8
  /-- Every chunk but the last is a full one. -/
  full : ∀ x ∈ xs.dropLast, x.1.toNat = 8

theorem ChunksOf.nil : ChunksOf [] [] := ⟨rfl, rfl, by simp, by simp⟩

/-- One more ABSORB in front, of the first 8 bytes or of all when they are fewer. -/
theorem ChunksOf.cons {m : List Byte} {xs : List (BitVec 4 × Word)} (hm : m ≠ []) (h : ChunksOf (m.drop 8) xs) :
    ChunksOf m ((BitVec.ofNat 4 (m.take 8).length, packChunk (m.take 8)) :: xs) := by
  have hpos : 0 < m.length := List.length_pos_iff.mpr hm
  have hle : (m.take 8).length ≤ 8 := by simp
  have hlen : (BitVec.ofNat 4 (m.take 8).length).toNat = (m.take 8).length := by rw [BitVec.toNat_ofNat]; omega
  have hcount := h.count
  rw [List.length_drop] at hcount
  refine ⟨?_, ?_, ?_, ?_⟩
  · rw [List.flatMap_cons, h.concat, chunk_packChunk hle, List.take_append_drop]
  · rw [List.length_cons, hcount]
    omega
  · exact List.forall_mem_cons.mpr ⟨by rw [hlen]; exact hle, h.legal⟩
  · cases xs with
    | nil => simp
    | cons y ys =>
      rw [List.length_cons] at hcount
      refine List.forall_mem_cons.mpr ⟨?_, h.full⟩
      rw [hlen, List.length_take]
      omega

theorem absorbChunks_eq_map {n : Nat} {m : List Byte} (h : m.length ≤ n) :
    ∃ xs, absorbChunks n m = xs.map (fun x => .absorb x.1 x.2) ∧ ChunksOf m xs := by
  induction n generalizing m with
  | zero => rw [List.length_eq_zero_iff.mp (Nat.le_zero.mp h)]; exact ⟨[], rfl, .nil⟩
  | succ n ih =>
    by_cases hm : m = []
    · rw [hm]; exact ⟨[], rfl, .nil⟩
    · obtain ⟨xs, heq, hxs⟩ := ih (m := m.drop 8) (by rw [List.length_drop]; omega)
      exact ⟨_, by rw [absorbChunks, if_neg hm, heq]; rfl, hxs.cons hm⟩

/-- Settles O53: `absorbChunks_eq_map`, and the empty string has its one empty ABSORB. -/
theorem absorbBytesExpansion : Obligations.AbsorbBytesExpansion := by
  intro m
  by_cases hm : m = []
  · rw [hm]
    exact ⟨[(0, 0)], rfl, rfl, rfl, by simp, by simp⟩
  · obtain ⟨xs, heq, hxs⟩ := absorbChunks_eq_map (le_refl m.length)
    have hpos : 0 < m.length := List.length_pos_iff.mpr hm
    refine ⟨xs, by rw [absorbBytes, if_neg hm, heq], hxs.concat, ?_, hxs.legal, hxs.full⟩
    rw [hxs.count]
    omega

end Sys2Proof.Proofs
end

section
/-! What the host's program does to the context (10_state.md R31): a rule for a program of commands that all complete, in
terms of what holds of the context before and after, and of the responses. -/

namespace Sys2Proof.Proofs

open Sys2Proof.Machine

theorem run_add {j : Nat} (k : Nat) {s t : State} (h : Host.Core.run Sys2Proof.core j s = .next t) :
    Host.Core.run Sys2Proof.core (j + k) s = Host.Core.run Sys2Proof.core k t := by
  induction j generalizing s with
  | zero => cases h; rw [Nat.zero_add]
  | succ j ih =>
    obtain ⟨u, hu, hrun⟩ := run_succ_next h
    rw [Nat.add_right_comm, run_succ _ hu]
    exact ih hrun

theorem observe_add {j : Nat} (k : Nat) {s t : State} (h : Host.Core.run Sys2Proof.core j s = .next t) :
    observe (j + k) s = observe j s ++ observe k t := by
  induction j generalizing s with
  | zero => cases h; rw [Nat.zero_add]; rfl
  | succ j ih =>
    obtain ⟨u, hu, hrun⟩ := run_succ_next h
    rw [Nat.add_right_comm, observe_succ_of_next _ hu, observe_succ_of_next _ hu, ih hrun, List.cons_append]

theorem hostProgram_length (is : List Instr) : (hostProgram is).length = is.length := List.length_map ..

theorem hostProgram_append (is js : List Instr) : hostProgram (is ++ js) = hostProgram is ++ hostProgram js :=
  List.map_append ..

/-- From every state of the configuration cfg whose context meets P and whose host issues the commands is next, the run over
them ends in a context that meets Q, with the responses rs, and leaves the configuration and the host's later events. -/
def Completes (cfg : Config) (P : Context → Prop) (is : List Instr) (rs : List (BitVec 4 × Word)) (Q : Context → Prop) :
    Prop :=
  ∀ (s : State) (rest : List HostEvent), s.cfg = cfg → P s.context → s.host = hostProgram is ++ rest →
    ∃ t : State, Host.Core.run Sys2Proof.core is.length s = .next t ∧ observe is.length s = rs ∧ t.cfg = cfg ∧
      t.host = rest ∧ Q t.context

theorem Completes.nil {cfg : Config} {P : Context → Prop} : Completes cfg P [] [] P :=
  fun s _ hcfg hp hh => ⟨s, rfl, rfl, hcfg, hh, hp⟩

/-- One program after another. -/
theorem Completes.append {cfg : Config} {P Q R : Context → Prop} {is js : List Instr} {rs qs : List (BitVec 4 × Word)}
    (h₁ : Completes cfg P is rs Q) (h₂ : Completes cfg Q js qs R) : Completes cfg P (is ++ js) (rs ++ qs) R := by
  intro s rest hcfg hp hh
  rw [hostProgram_append, List.append_assoc] at hh
  obtain ⟨t, hrun, hobs, htcfg, hthost, hq⟩ := h₁ s _ hcfg hp hh
  obtain ⟨u, hrun', hobs', hu⟩ := h₂ t rest htcfg hq hthost
  refine ⟨u, ?_, ?_, hu⟩
  · rw [List.length_append, run_add _ hrun, hrun']
  · rw [List.length_append, observe_add _ hrun, hobs, hobs']

/-- One command, from what its meaning does: issuing it and its response leave the context alone. -/
theorem Completes.single {cfg : Config} {P Q : Context → Prop} {i : Instr} {d : Word} (hc : configAccepted cfg = true)
    (hi : i.wellFormed = true)
    (hexec : ∀ s : State, s.cfg = cfg → P s.context → ∃ t, exec i s = .next (responded .ok d t) ∧ Q t.context) :
    Completes cfg P [i] [(0, d)] Q := by
  intro s rest hcfg hp hh
  obtain ⟨t, ht, hq⟩ := hexec (issued (encode i) rest s) hcfg hp
  obtain ⟨_, _, htcfg, hthost⟩ := exec_frame ht
  have hstep : step s = .next (responded .ok d t) := (step_of_command (hcfg ▸ hc) hh (decode_encode hi)).trans ht
  exact ⟨_, run_succ 0 hstep, observe_succ_of_next 0 hstep, htcfg.trans hcfg, hthost, hq⟩

end Sys2Proof.Proofs
end

section
/-! A whole computation (30_encoding.md R69; 43_streaming_absorb.md R164; 44_finalization.md R180): what the context holds
while a message is absorbed, and the digest that FINALIZE makes of it. -/

namespace Sys2Proof.Proofs

open Sys2Proof.Machine

/-- The bytes m have been appended since the computation began: q, the full blocks of m, are compressed in H, and the rest
stands in the buffer (43_streaming_absorb.md R162, R163). -/
def BufferHolds (cfg : Config) (m : List Byte) (x : Context) : Prop :=
  x.pos.toNat = x.buf.length ∧
    ∃ n q, q.length = 64 * n ∧ m = q ++ x.buf ∧ x.h = compressBlocks cfg n q zeroBlock

theorem BufferHolds.appendByte {cfg : Config} {m : List Byte} {s : State} (hcfg : s.cfg = cfg)
    (h : BufferHolds cfg m s.context) (x : Byte) : BufferHolds cfg (m ++ [x]) (appendByte s x).context := by
  obtain ⟨hpos, n, q, hq, hm, hh⟩ := h
  refine ⟨appendByte_keeps_pos x hpos, ?_⟩
  change s.pos.toNat = s.buf.length at hpos
  change m = q ++ s.buf at hm
  change s.h = compressBlocks cfg n q zeroBlock at hh
  have hlt := buf_length_lt hpos
  by_cases hfull : s.buf.length = 63
  · rw [appendByte_of_full x hpos hfull]
    have hblock : (s.buf ++ [x]).length = 64 := by simp [hfull]
    refine ⟨n + 1, q ++ (s.buf ++ [x]), ?_, ?_, ?_⟩
    · rw [List.length_append, hq, hblock, Nat.mul_succ]
    · simp [hm, State.context]
    · rw [compressBlocks_append cfg n 1 q _ _ hq, compressBlocks_one cfg _ _ hblock, ← hh, ← hcfg]
      rfl
  · rw [appendByte_of_room x hpos (by omega)]
    exact ⟨n, q, hq, by simp [hm, State.context], hh⟩

theorem BufferHolds.appendBytes {cfg : Config} {m : List Byte} {s : State} (hcfg : s.cfg = cfg)
    (h : BufferHolds cfg m s.context) (bs : List Byte) : BufferHolds cfg (m ++ bs) (appendBytes s bs).context := by
  induction bs generalizing m s with
  | nil => simpa [Machine.appendBytes] using h
  | cons b bs ih =>
    have hrest := ih ((appendByte_cfg s b).trans hcfg) (h.appendByte hcfg b)
    rwa [List.append_assoc] at hrest

/-- The context of a computation that has absorbed the bytes m. -/
structure HasAbsorbed (cfg : Config) (m : List Byte) (x : Context) : Prop where
  /-- The computation goes on. -/
  phase : x.phase = .absorbing
  /-- CNT is the bit count, which has not wrapped. -/
  count : x.cnt.toNat = 8 * m.length
  /-- H and BUF hold the bytes. -/
  buffer : BufferHolds cfg m x

theorem HasAbsorbed.clearContext (cfg : Config) (s : State) : HasAbsorbed cfg [] (clearContext s).context :=
  ⟨rfl, rfl, rfl, 0, [], rfl, rfl, rfl⟩

/-- An ABSORB that does not overflow completes and adds its chunk (43_streaming_absorb.md R160). -/
theorem HasAbsorbed.exec_absorb {cfg : Config} {m : List Byte} {s : State} {len : BitVec 4} (d : Word)
    (hcfg : s.cfg = cfg) (h : HasAbsorbed cfg m s.context) (hlen : len.toNat ≤ 8)
    (hfits : 8 * (m ++ chunk len d).length < 2 ^ 256) :
    exec (.absorb len d) s = .next (responded .ok 0 (absorbed len d s)) ∧
      HasAbsorbed cfg (m ++ chunk len d) (absorbed len d s).context := by
  have hphase : s.phase = .absorbing := h.phase
  have hcount : s.cnt.toNat = 8 * m.length := h.count
  have hsum : s.cnt.toNat + 8 * len.toNat = 8 * (m ++ chunk len d).length := by
    rw [List.length_append, chunk_length d hlen, hcount, Nat.mul_add]
  constructor
  · rcases execAbsorb_cases len d s with ⟨hl, _⟩ | ⟨_, hp, _⟩ | ⟨_, _, hrej, _⟩ | ⟨_, _, _, e⟩
    · have := (absorbLenLegal_eq_false_iff len).mp hl
      omega
    · simp [hphase] at hp
    · have := ((counterRejects_iff _ _ _).mp hrej).1
      omega
    · exact e
  · refine ⟨(absorbed_phase len d s).trans hphase, ?_, ?_⟩
    · change (absorbed len d s).cnt.toNat = _
      rw [absorbed_cnt, counterNext_toNat, hsum, Nat.mod_eq_of_lt hfits]
    · exact BufferHolds.appendBytes (s := { s with cnt := counterNext s.cnt len }) hcfg h.buffer _

/-- FINALIZE's blocks come after the full blocks that are already compressed: padding depends on the length modulo 64. -/
theorem finalBytes_append (w : LengthWindow) (q b : List Byte) (cnt : BitVec 256) {n : Nat} (hq : q.length = 64 * n) :
    finalBytes w (q ++ b) cnt = q ++ finalBytes w b cnt := by
  have hzeros : padZeros ((q ++ b).length + 1) = padZeros (b.length + 1) := by
    rw [List.length_append, hq]
    unfold padZeros
    omega
  rw [finalBytes, finalBytes, pad, pad, hzeros]
  simp only [List.append_assoc]

/-- FINALIZE after the bytes m makes the bulk digest of m (44_finalization.md R180). -/
theorem HasAbsorbed.finalH_eq {cfg : Config} {m : List Byte} {s : State} (hcfg : s.cfg = cfg)
    (h : HasAbsorbed cfg m s.context) : finalH s = bulkDigest cfg m := by
  obtain ⟨_, hcount, _, n, q, hq, hm, hh⟩ := h
  change m = q ++ s.buf at hm
  change s.h = compressBlocks cfg n q zeroBlock at hh
  have hcnt : BitVec.ofNat 256 (8 * m.length) = s.cnt :=
    BitVec.eq_of_toNat_eq (by rw [← hcount]; simp [State.context])
  have hbytes : finalBytes cfg.lengthWindow m s.cnt = q ++ finalBytes cfg.lengthWindow s.buf s.cnt := by
    rw [hm, finalBytes_append _ _ _ _ hq]
  have hblocks : (q ++ finalBytes cfg.lengthWindow s.buf s.cnt).length / 64 =
      n + (finalBytes cfg.lengthWindow s.buf s.cnt).length / 64 := by
    rw [List.length_append, hq]
    omega
  rw [finalH, bulkDigest, hcnt, hbytes, hblocks, compressBlocks_append cfg n _ q _ _ hq, ← hh, hcfg]

/-- The computation is finalized, with the chaining value h and the counter n. -/
def HasDigest (h : Block) (n : Nat) (x : Context) : Prop := x.phase = .final ∧ x.h = h ∧ x.cnt.toNat = n

section
variable {cfg : Config} (hc : configAccepted cfg = true)
include hc

theorem completes_init : Completes cfg (fun _ => True) [.init] [(0, 0)] (HasAbsorbed cfg []) :=
  .single hc rfl fun s _ _ => ⟨_, execInit_eq s, .clearContext cfg s⟩

theorem completes_absorbs (m : List Byte) (xs : List (BitVec 4 × Word)) (hlen : ∀ x ∈ xs, x.1.toNat ≤ 8)
    (hfits : 8 * (m ++ xs.flatMap fun x => chunk x.1 x.2).length < 2 ^ 256) :
    Completes cfg (HasAbsorbed cfg m) (xs.map fun x => .absorb x.1 x.2) (List.replicate xs.length (0, 0))
      (HasAbsorbed cfg (m ++ xs.flatMap fun x => chunk x.1 x.2)) := by
  induction xs generalizing m with
  | nil => rw [List.flatMap_nil, List.append_nil]; exact .nil
  | cons x xs ih =>
    obtain ⟨hx, hxs⟩ := List.forall_mem_cons.mp hlen
    rw [List.flatMap_cons, ← List.append_assoc] at hfits ⊢
    have hfits₁ : 8 * (m ++ chunk x.1 x.2).length < 2 ^ 256 := by
      rw [List.length_append] at hfits
      omega
    have hfirst : Completes cfg (HasAbsorbed cfg m) [.absorb x.1 x.2] [(0, 0)] (HasAbsorbed cfg (m ++ chunk x.1 x.2)) :=
      .single hc ((absorbLenLegal_iff x.1).mpr hx) fun s hcfg h => ⟨_, h.exec_absorb x.2 hcfg hx hfits₁⟩
    exact hfirst.append (ih _ hxs hfits)

theorem completes_finalize (m : List Byte) :
    Completes cfg (HasAbsorbed cfg m) [.finalize] [(0, 0)] (HasDigest (bulkDigest cfg m) (8 * m.length)) := by
  refine .single hc rfl fun s hcfg h => ⟨finalized s, ?_, rfl, h.finalH_eq hcfg, h.count⟩
  rcases execFinalize_cases s with ⟨hp, _⟩ | ⟨_, e⟩
  · exact absurd (hp.symm.trans h.phase) (by decide)
  · exact e

theorem completes_reads (h : Block) (n : Nat) (idxs : List (BitVec 3)) :
    Completes cfg (HasDigest h n) (idxs.map .readDigest) (idxs.map fun idx => (0, digestWord h idx)) (HasDigest h n) := by
  induction idxs with
  | nil => exact .nil
  | cons idx idxs ih =>
    have hfirst : Completes cfg (HasDigest h n) [.readDigest idx] [(0, digestWord h idx)] (HasDigest h n) := by
      refine .single hc rfl fun s _ hs => ⟨s, ?_, hs⟩
      obtain ⟨hphase, hh, _⟩ := hs
      rw [← hh]
      exact exec_readDigest_of_final idx hphase
    exact hfirst.append ih

/-- The commands of `hash m` (30_encoding.md R69): each completes, and the reads return the words of the bulk digest. -/
theorem completes_hash (m : List Byte) (hm : m.length < 2 ^ 253) :
    Completes cfg (fun _ => True) (hashCommands m)
      (List.replicate ((hashCommands m).length - 8) (0, 0) ++ (bulkDigest cfg m).toList.map fun w => (0, w))
      (HasDigest (bulkDigest cfg m) (8 * m.length)) := by
  obtain ⟨xs, hxs, hconcat, _, hlen, _⟩ := absorbBytesExpansion m
  have habsorb := completes_absorbs hc [] xs hlen (by rw [List.nil_append, hconcat]; omega)
  rw [List.nil_append, hconcat, ← hxs] at habsorb
  have hdigest := (completes_finalize hc m).append (completes_reads hc _ _ [0, 1, 2, 3, 4, 5, 6, 7])
  have hall := (completes_init hc).append (habsorb.append hdigest)
  have hcount : (hashCommands m).length - 8 = 1 + xs.length + 1 := by
    simp [hashCommands, digestCommands, hxs]
    omega
  have hwords : (bulkDigest cfg m).toList.map (fun w => ((0 : BitVec 4), w)) =
      [0, 1, 2, 3, 4, 5, 6, 7].map fun idx => (0, digestWord (bulkDigest cfg m) idx) := by
    rw [block_toList]
    rfl
  rw [hcount, hwords, List.replicate_add, List.replicate_add, List.append_assoc, List.append_assoc]
  exact hall

end

/-- Settles O54: `completes_hash`, its responses cut before the last eight. -/
theorem hashCommandsComputeBulkDigest : Obligations.HashCommandsComputeBulkDigest := by
  intro s m rest hc hm hh
  obtain ⟨t, hrun, hobs, _, hhost, hphase, hdigest, hcnt⟩ := completes_hash hc m hm s rest rfl trivial hh
  refine ⟨⟨t, hrun, hdigest, hphase, hcnt, hhost⟩, ?_, ?_⟩
  · rw [hobs, List.take_left' List.length_replicate]
  · rw [hobs, List.drop_left' List.length_replicate]

end Sys2Proof.Proofs
end

section
/-! The substitution table and the round constants (40_sbox_and_round_constants.md R101 to R106): which tables step
refuses, the default table beside its generator, and the bytes of a round constant. -/

namespace Sys2Proof.Proofs

open Sys2Proof.Machine

/-- step refuses by the check of the table alone: with an accepted table every step answers a next state. -/
theorem step_eq_refused_iff (s : State) :
    step s = .refused .sboxNotPermutation ↔ ¬ configAccepted s.cfg = true := by
  constructor
  · intro h hc
    obtain ⟨t, hnext⟩ := step_answers_next hc
    rw [h] at hnext
    cases hnext
  · intro hc
    exact if_neg hc

/-- A configuration is accepted exactly if its substitution is a bijection (40_sbox_and_round_constants.md R103). -/
theorem configAccepted_iff_bijective (cfg : Config) :
    configAccepted cfg = true ↔ Function.Bijective (substitute cfg.sbox) :=
  sboxIsPermutation_iff_bijective cfg.sbox

/-- Settles O22: step refuses what the check of the table does not accept, and the check is the bijections'. -/
theorem nonBijectiveSboxRefused : Obligations.NonBijectiveSboxRefused :=
  ⟨fun s => (step_eq_refused_iff s).trans (configAccepted_iff_bijective s.cfg).not,
    (configAccepted_iff_bijective defaultConfig).mp configAccepted_defaultConfig⟩

/-- RC[0], which no round reads (40_sbox_and_round_constants.md R106). -/
@[simp] theorem roundConstant_zero (t : Sbox) : roundConstant t 0 = 0 := rfl

/-- Byte i of RC[r] is entry 8(r−1)+i of the table (40_sbox_and_round_constants.md R104). -/
theorem byte_roundConstant (t : Sbox) {r : Fin 11} (hr : r ≠ 0) (i : Fin 8) :
    byte (roundConstant t r) i = substitute t (BitVec.ofNat 8 (8 * (r.val - 1) + i.val)) := by
  rw [roundConstant, if_neg hr, byte_pack]

/-- Settles O23: the bits that the statement takes out of RC[r] are `byte`'s. -/
theorem roundConstantsPackTable : Obligations.RoundConstantsPackTable :=
  fun t => ⟨roundConstant_zero t, fun _ i hr => byte_roundConstant t hr i⟩

/-- Settles O21: the two tables are compared at each of the 256 bytes, as R102 offers the construction for. -/
theorem defaultSboxIsGenerated : Obligations.DefaultSboxIsGenerated := by
  unfold Obligations.DefaultSboxIsGenerated
  decide

/-- Settles O24: the default table is a literal, so each of the ten words is computed from its entries. -/
theorem defaultRoundConstants : Obligations.DefaultRoundConstants := by
  unfold Obligations.DefaultRoundConstants
  decide

end Sys2Proof.Proofs
end

section
/-! GF_MUL as the product of a quotient ring (41_gf_multiplier_and_diffusion.md R120, R121). A byte is read in any commutative
ring over GF(2) as the sum of the powers of an element x at its set bits. Where x is a root of the reduction polynomial,
doubling is multiplication by x, and so the loop of GF_MUL is the product; in the quotient ring no two bytes are read alike,
and the laws of GF_MUL are the ring's. -/

namespace Sys2Proof.Proofs

open Sys2Proof.Machine

section
variable {R : Type*} [CommRing R]

/-- The low n bits of a byte read as a polynomial at x. -/
def evalLow (x : R) (n : Nat) (b : Byte) : R := ∑ i ∈ Finset.range n, if b.getLsbD i then x ^ i else 0

@[simp] theorem evalLow_zero (x : R) (b : Byte) : evalLow x 0 b = 0 := rfl

/-- The top bit apart. -/
theorem evalLow_succ_top (x : R) (n : Nat) (b : Byte) :
    evalLow x (n + 1) b = evalLow x n b + if b.getLsbD n then x ^ n else 0 := Finset.sum_range_succ _ _

/-- The bottom bit apart: what is left is x times the byte shifted right, as the loop of GF_MUL shifts it. -/
theorem evalLow_succ (x : R) (n : Nat) (b : Byte) :
    evalLow x (n + 1) b = (if b.getLsbD 0 then 1 else 0) + x * evalLow x n (b >>> 1) := by
  simp only [evalLow]
  rw [Finset.sum_range_succ', Finset.mul_sum, add_comm]
  simp [add_comm 1, pow_succ']

/-- Two bytes with equal low bits are read alike. -/
theorem evalLow_congr (x : R) {n : Nat} {a b : Byte} (h : ∀ i < n, a.getLsbD i = b.getLsbD i) :
    evalLow x n a = evalLow x n b :=
  Finset.sum_congr rfl fun i hi => by rw [h i (Finset.mem_range.mp hi)]

/-- The reading of the zero byte. -/
@[simp] theorem evalLow_zero_byte (x : R) (n : Nat) : evalLow x n 0#8 = 0 := by simp [evalLow]

/-- The byte 1 is read as 1. -/
theorem evalLow_one_byte (x : R) (n : Nat) : evalLow x (n + 1) 1#8 = 1 := by
  rw [evalLow_succ, show (1#8 >>> 1 : Byte) = 0#8 from rfl]
  simp

/-- A ring homomorphism moves the reading to the image of x. -/
theorem map_evalLow {S : Type*} [CommRing S] (f : R →+* S) (x : R) (n : Nat) (b : Byte) :
    f (evalLow x n b) = evalLow (f x) n b := by
  simp [evalLow, apply_ite f]

/-- A left shift multiplies by x the bits that it does not drop. -/
theorem evalLow_shiftLeft (x : R) (a : Byte) : evalLow x 8 (a <<< 1) = x * evalLow x 7 a := by
  have hlow : evalLow x 7 ((a <<< 1) >>> 1) = evalLow x 7 a :=
    evalLow_congr x fun i hi => by simp [show i < 8 ∧ 1 + i < 8 by omega]
  rw [evalLow_succ, hlow]
  simp

/-- At a root of the reduction polynomial, the byte 0x1D is what the bit shifted out stands for. -/
theorem evalLow_reduction {x : R} (hx : x ^ 8 = x ^ 4 + x ^ 3 + x ^ 2 + 1) : evalLow x 8 0x1D = x ^ 8 := by
  have hbits : evalLow x 8 0x1D = 1 + x ^ 2 + x ^ 3 + x ^ 4 := by simp [evalLow, Finset.sum_range_succ]
  rw [hbits, hx]
  ring

variable [Algebra (ZMod 2) R]

/-- xor is read as the sum: equal bits cancel. -/
theorem evalLow_xor (x : R) (n : Nat) (a b : Byte) : evalLow x n (a ^^^ b) = evalLow x n a + evalLow x n b := by
  simp only [evalLow]
  rw [← Finset.sum_add_distrib]
  refine Finset.sum_congr rfl fun i _ => ?_
  rw [BitVec.getLsbD_xor]
  cases a.getLsbD i <;> cases b.getLsbD i <;> simp [ZModModule.add_self]

section
variable {x : R} (hx : x ^ 8 = x ^ 4 + x ^ 3 + x ^ 2 + 1)
include hx

/-- At a root of the reduction polynomial, doubling is multiplication by x. -/
theorem evalLow_gfDouble (a : Byte) : evalLow x 8 (gfDouble a) = x * evalLow x 8 a := by
  rw [evalLow_succ_top x 7 a, mul_add, ← evalLow_shiftLeft, gfDouble]
  cases a.getLsbD 7 with
  | false => simp
  | true =>
    simp only [if_true]
    rw [evalLow_xor, evalLow_reduction hx, pow_succ']

/-- n iterations of the multiplier multiply by the low n bits of its second operand. -/
theorem evalLow_gfMulLoop (n : Nat) (a b : Byte) :
    evalLow x 8 (gfMulLoop n a b 0) = evalLow x 8 a * evalLow x n b := by
  induction n generalizing a b with
  | zero => simp [gfMulLoop]
  | succ n ih =>
    rw [gfMulLoop_succ, evalLow_xor, ih, evalLow_gfDouble hx, evalLow_succ x n b, mul_add, mul_left_comm, mul_assoc]
    congr 1
    cases b.getLsbD 0 <;> simp

/-- At a root of the reduction polynomial, GF_MUL is read as the product (41_gf_multiplier_and_diffusion.md R121). -/
theorem evalLow_gfMul (a b : Byte) : evalLow x 8 (gfMul a b) = evalLow x 8 a * evalLow x 8 b :=
  evalLow_gfMulLoop hx 8 a b

end

end

/-- The reduction polynomial of GF_MUL (41_gf_multiplier_and_diffusion.md R120). -/
noncomputable abbrev reductionPoly : Polynomial (ZMod 2) :=
  Polynomial.X ^ 8 + Polynomial.X ^ 4 + Polynomial.X ^ 3 + Polynomial.X ^ 2 + 1

theorem degree_reductionPoly : reductionPoly.degree = 8 := by
  unfold reductionPoly
  compute_degree!

/-- The adjoined root is a root of the reduction polynomial, and 1 is its own negative. -/
theorem root_pow_eight : AdjoinRoot.root reductionPoly ^ 8 =
    AdjoinRoot.root reductionPoly ^ 4 + AdjoinRoot.root reductionPoly ^ 3 + AdjoinRoot.root reductionPoly ^ 2 + 1 := by
  have h : AdjoinRoot.mk reductionPoly reductionPoly = 0 := AdjoinRoot.mk_self
  simp only [map_add, map_pow, AdjoinRoot.mk_X, map_one, add_assoc] at h
  simpa only [add_assoc, ZModModule.neg_eq_self] using eq_neg_of_add_eq_zero_left h

/-- The coefficients of a byte's polynomial are its bits. -/
theorem coeff_evalLow_X (n : Nat) (b : Byte) (i : Nat) :
    (evalLow (Polynomial.X : Polynomial (ZMod 2)) n b).coeff i = if i < n ∧ b.getLsbD i then 1 else 0 := by
  have hterm (j : Nat) : (if b.getLsbD j then (Polynomial.X : Polynomial (ZMod 2)) ^ j else 0).coeff i =
      if i = j then if b.getLsbD i then 1 else 0 else 0 := by
    rw [apply_ite (Polynomial.coeff · i), Polynomial.coeff_X_pow]
    by_cases hij : i = j <;> simp [hij]
  simp only [evalLow, Polynomial.finsetSum_coeff, hterm]
  rw [Finset.sum_ite_eq]
  simp [ite_and]

/-- A byte's polynomial has a smaller degree than the reduction polynomial. -/
theorem degree_evalLow_X_lt (b : Byte) :
    (evalLow (Polynomial.X : Polynomial (ZMod 2)) 8 b).degree < reductionPoly.degree := by
  rw [degree_reductionPoly]
  refine (Polynomial.degree_lt_iff_coeff_zero _ 8).mpr fun i hi => ?_
  rw [coeff_evalLow_X, if_neg fun h => absurd h.1 (by omega)]

/-- The reading of a byte in the quotient ring: the polynomial of its bits at the root. -/
noncomputable def evalByte (b : Byte) : AdjoinRoot reductionPoly := evalLow (AdjoinRoot.root reductionPoly) 8 b

/-- Only the zero byte is read as 0: the reduction polynomial divides no nonzero polynomial of smaller degree. -/
theorem eq_zero_of_evalByte_eq_zero {b : Byte} (h : evalByte b = 0) : b = 0#8 := by
  have hmk : AdjoinRoot.mk reductionPoly (evalLow Polynomial.X 8 b) = 0 := by
    rw [map_evalLow, AdjoinRoot.mk_X]
    exact h
  have hpoly : evalLow (Polynomial.X : Polynomial (ZMod 2)) 8 b = 0 :=
    Polynomial.eq_zero_of_dvd_of_degree_lt (AdjoinRoot.mk_eq_zero.mp hmk) (degree_evalLow_X_lt b)
  refine BitVec.eq_of_getLsbD_eq fun i hi => ?_
  have hcoeff := coeff_evalLow_X 8 b i
  rw [hpoly] at hcoeff
  simpa [hi] using hcoeff

theorem evalByte_xor (a b : Byte) : evalByte (a ^^^ b) = evalByte a + evalByte b := evalLow_xor _ 8 a b

theorem evalByte_gfMul (a b : Byte) : evalByte (gfMul a b) = evalByte a * evalByte b := evalLow_gfMul root_pow_eight a b

/-- No two bytes are read alike: their xor would be read as 0. -/
theorem evalByte_injective : Function.Injective evalByte := fun a b h => by
  rw [← BitVec.xor_eq_zero_iff]
  apply eq_zero_of_evalByte_eq_zero
  rw [evalByte_xor, h, ZModModule.add_self]

theorem gfMul_comm (a b : Byte) : gfMul a b = gfMul b a :=
  evalByte_injective (by rw [evalByte_gfMul, evalByte_gfMul, mul_comm])

theorem gfMul_assoc (a b c : Byte) : gfMul (gfMul a b) c = gfMul a (gfMul b c) :=
  evalByte_injective (by simp only [evalByte_gfMul, mul_assoc])

theorem gfMul_one_left (a : Byte) : gfMul 1#8 a = a :=
  evalByte_injective (by rw [evalByte_gfMul, show evalByte 1#8 = 1 from evalLow_one_byte _ 7, one_mul])

@[simp] theorem gfMul_zero_left (a : Byte) : gfMul 0#8 a = 0#8 := by rw [gfMul_comm, gfMul_zero_right]

/-- Settles O26: the reading at the root of the quotient ring takes GF_MUL to the product and is injective, so that
GF_MUL has the ring's laws. -/
theorem gfMulIsFieldMultiplication : Obligations.GfMulIsFieldMultiplication :=
  ⟨⟨evalByte, evalByte_injective, fun _ => Finset.sum_range _, evalByte_xor, evalByte_gfMul⟩,
    gfMul_comm, gfMul_assoc, gfMul_xor_right, gfMul_one_left, gfMul_zero_left⟩

/-- Settles O25: three runs of the multiplier's loop. -/
theorem gfMulExamples : Obligations.GfMulExamples := by
  unfold Obligations.GfMulExamples
  decide

end Sys2Proof.Proofs
end

section
/-! The diffusion layer (41_gf_multiplier_and_diffusion.md R122 to R125): its two matrices, and its linearity, which it has
from the multiplier's column by column. -/

namespace Sys2Proof.Proofs

open Sys2Proof.Machine

/-- Every row of either matrix xors to 3 (41_gf_multiplier_and_diffusion.md R123). -/
theorem xorBytes_diffEntry_row (rot : DiffRotation) (r : Fin 8) : xorBytes (diffEntry rot r) = 3#8 := by
  cases rot <;> decide +revert

/-- Every column of either matrix xors to 3 (41_gf_multiplier_and_diffusion.md R123). -/
theorem xorBytes_diffEntry_column (rot : DiffRotation) (k : Fin 8) : (xorBytes fun r => diffEntry rot r k) = 3#8 := by
  cases rot <;> decide +revert

/-- Settles O27: the entries, the rows and their xors are computed from the eight coefficients. -/
theorem diffusionMatrices : Obligations.DiffusionMatrices :=
  ⟨rfl, by decide, fun rot r => ⟨xorBytes_diffEntry_row rot r, xorBytes_diffEntry_column rot r⟩, by decide, by decide⟩

/-- Multiplying eight bytes by v and adding is adding and multiplying by v. -/
theorem xorBytes_gfMul_left (f : Fin 8 → Byte) (v : Byte) : (xorBytes fun k => gfMul (f k) v) = gfMul (xorBytes f) v := by
  simp only [xorBytes, gfMul_xor_left]

@[simp] theorem diffuse_zeroBlock (rot : DiffRotation) : diffuse rot zeroBlock = zeroBlock :=
  block_ext_byte fun r c => by simp [xorBytes]

/-- DIFFUSE is linear over xor (41_gf_multiplier_and_diffusion.md R124). -/
theorem diffuse_xorBlock (rot : DiffRotation) (a b : Block) :
    diffuse rot (xorBlock a b) = xorBlock (diffuse rot a) (diffuse rot b) :=
  block_ext_byte fun r c => by simp [gfMul_xor_right, xorBytes_xor]

/-- A constant state is multiplied by 3, the xor of each row (41_gf_multiplier_and_diffusion.md R124). -/
theorem diffuse_constant (rot : DiffRotation) (v : Byte) :
    diffuse rot (blockOfFn fun _ => pack fun _ => v) = blockOfFn fun _ => pack fun _ => gfMul 3#8 v :=
  block_ext_byte fun r c => by simp [xorBytes_gfMul_left, xorBytes_diffEntry_row]

/-- Settles O28, from the multiplier's linearity and the xor of each row. -/
theorem diffuseIsLinear : Obligations.DiffuseIsLinear :=
  fun rot => ⟨diffuse_zeroBlock rot, diffuse_xorBlock rot, diffuse_constant rot⟩

/-- Settles O29: by `byte_diffuse`, an output byte is made of the bytes of its own column only. -/
theorem diffuseKeepsColumns : Obligations.DiffuseKeepsColumns := fun rot a b c h r => by
  simp only [Fin.getElem_fin, byte_diffuse]
  exact xorBytes_congr fun k => congrArg (gfMul _) (h k)

end Sys2Proof.Proofs
end

section
/-! The round transform (42_round_and_compression.md R140 to R144): SUBPERM as a bijection, both registers of one round byte by
byte, and COMPRESS as the sequence of its ten rounds. -/

namespace Sys2Proof.Proofs

open Sys2Proof.Machine

/-- The model's index i − j in `Fin 8` is the spec's (i − j) mod 8 (42_round_and_compression.md R140). -/
theorem block_getElem_sub (a : Block) (i j : Fin 8) :
    a[i - j] = a[(i.val + 8 - j.val) % 8]'(Nat.mod_lt _ (by decide)) := by
  have hidx : (i - j).val = (i.val + 8 - j.val) % 8 := by
    rw [Fin.val_sub]
    omega
  simp only [Fin.getElem_fin, hidx]

/-- Byte j of word i goes to word i + j, where it is read back through the table. -/
theorem subPerm_injective {t : Sbox} (ht : Function.Injective (substitute t)) : Function.Injective (subPerm t) := by
  intro a b hab
  refine block_ext_byte fun i j => ht ?_
  have hmoved : byte (subPerm t a)[i + j] j = byte (subPerm t b)[i + j] j := by rw [hab]
  simpa using hmoved

/-- A preimage takes byte j of word i from word i + j, back through the table. -/
theorem subPerm_surjective {t : Sbox} (ht : Function.Surjective (substitute t)) : Function.Surjective (subPerm t) := by
  obtain ⟨inv, hinv⟩ := ht.hasRightInverse
  intro b
  refine ⟨blockOfFn fun i => pack fun j => inv (byte b[i + j] j), block_ext_byte fun i j => ?_⟩
  simp [hinv _]

/-- Settles O30: the byte movement is `byte_subPerm`, and SUBPERM has each half of bijectivity from the table. -/
theorem subPermIsBijection : Obligations.SubPermIsBijection := by
  refine fun t => ⟨fun a i j => ?_, fun ht => ?_⟩
  · rw [← block_getElem_sub]
    exact byte_subPerm t a i i.isLt j
  · obtain ⟨hinj, hsurj⟩ := (sboxIsPermutation_iff_bijective t).mp ht
    exact ⟨subPerm_injective hinj, subPerm_surjective hsurj⟩

/-- Settles O31: the new registers are KEY_ROUND of the old key and STATE_ROUND of the old state with that new key. -/
theorem roundUpdatesBothRegisters : Obligations.RoundUpdatesBothRegisters := fun cfg x r i j =>
  ⟨byte_keyRound cfg.sbox x.kr r i j, byte_stateRound cfg x.st (keyRound cfg.sbox x.kr r) i j⟩

/-- Settles O32: one round on literals. -/
theorem firstRoundOfZero : Obligations.FirstRoundOfZero := by
  unfold Obligations.FirstRoundOfZero
  decide

/-- KR and ST after the first n rounds of COMPRESS (42_round_and_compression.md R144). -/
def regsAfter (cfg : Config) (h blk : Block) (n : Nat) : RoundRegs := runRounds cfg (roundIndices.take n) h blk

/-- The round after the first r has the index r + 1. -/
theorem regsAfter_succ (cfg : Config) (h blk : Block) (r : Fin 10) :
    regsAfter cfg h blk (r.val + 1) = roundStep cfg (regsAfter cfg h blk r.val) r.succ := by
  have hindices : roundIndices.take (r.val + 1) = roundIndices.take r.val ++ [r.succ] := by decide +revert
  rw [regsAfter, hindices, runRounds_concat, regsAfter]

/-- The feed-forward after the tenth round. -/
theorem compress_eq_regsAfter_ten (cfg : Config) (h blk : Block) :
    compress cfg h blk = xorBlock (xorBlock (regsAfter cfg h blk 10).st h) blk := rfl

/-- Settles O33: the sequence is that of the first n rounds. -/
theorem compressRunsTenRounds : Obligations.CompressRunsTenRounds := fun cfg h blk =>
  ⟨regsAfter cfg h blk, rfl, rfl, regsAfter_succ cfg h blk, compress_eq_regsAfter_ten cfg h blk⟩

end Sys2Proof.Proofs
end

section
/-! The eight byte columns are compressed apart (42_round_and_compression.md R146): agreement in one column is kept by every
operation of the datapath, so by COMPRESS and by the digest of a whole message. -/

namespace Sys2Proof.Proofs

open Sys2Proof.Machine

/-- Two 8-word states have the same byte column c. -/
def AgreeInColumn (c : Fin 8) (a b : Block) : Prop := ∀ k : Fin 8, byte a[k] c = byte b[k] c

namespace AgreeInColumn

variable {c : Fin 8} {a b a' b' h g : Block}

theorem xorBlock (h₁ : AgreeInColumn c a b) (h₂ : AgreeInColumn c a' b') :
    AgreeInColumn c (Machine.xorBlock a a') (Machine.xorBlock b b') := fun i => by
  simpa using congrArg₂ (· ^^^ ·) (h₁ i) (h₂ i)

/-- SUBPERM moves a byte to another word and leaves it in its column. -/
theorem subPerm (t : Sbox) (hab : AgreeInColumn c a b) :
    AgreeInColumn c (Machine.subPerm t a) (Machine.subPerm t b) := fun i => by
  simpa using congrArg (substitute t) (hab (i - c))

/-- RC[r] is xored into both keys alike. -/
theorem keyRound (t : Sbox) (r : Fin 11) (hab : AgreeInColumn c a b) :
    AgreeInColumn c (Machine.keyRound t a r) (Machine.keyRound t b r) := fun i => by
  rw [byte_keyRound, byte_keyRound, hab (i - c)]

theorem stateRound (cfg : Config) (hs : AgreeInColumn c a b) (hk : AgreeInColumn c a' b') :
    AgreeInColumn c (Machine.stateRound cfg a a') (Machine.stateRound cfg b b') :=
  .xorBlock (diffuseKeepsColumns cfg.diffRotation _ _ c (hs.subPerm cfg.sbox)) hk

/-- Both registers after any rounds, by induction on the rounds from any two register pairs. -/
theorem foldl_roundStep (cfg : Config) (rs : List (Fin 11)) {x y : RoundRegs} (hk : AgreeInColumn c x.kr y.kr)
    (hs : AgreeInColumn c x.st y.st) :
    AgreeInColumn c (rs.foldl (roundStep cfg) x).st (rs.foldl (roundStep cfg) y).st := by
  induction rs generalizing x y with
  | nil => exact hs
  | cons r rs ih =>
    have hkey : AgreeInColumn c (roundStep cfg x r).kr (roundStep cfg y r).kr := hk.keyRound cfg.sbox r
    exact ih hkey (hs.stateRound cfg hkey)

theorem compress (cfg : Config) (hh : AgreeInColumn c h g) (hab : AgreeInColumn c a b) :
    AgreeInColumn c (Machine.compress cfg h a) (Machine.compress cfg g b) :=
  ((foldl_roundStep cfg roundIndices hh (hh.xorBlock hab)).xorBlock hh).xorBlock hab

end AgreeInColumn

/-- Settles O34: the ten rounds and the feed-forward each keep the agreement in column c. -/
theorem compressKeepsColumns : Obligations.CompressKeepsColumns := fun cfg _ _ _ _ _ hh hab =>
  AgreeInColumn.compress cfg hh hab

/-- Two byte strings agree at the positions that LOAD_BLOCK puts into column c (20_memory.md R41). -/
def AgreeAtColumn (c : Fin 8) (p q : List Byte) : Prop := ∀ k : Nat, k % 8 = c.val → p[k]? = q[k]?

namespace AgreeAtColumn

variable {c : Fin 8} {p q : List Byte}

theorem loadBlock (hpq : AgreeAtColumn c p q) : AgreeInColumn c (Machine.loadBlock p) (Machine.loadBlock q) := fun i => by
  simp [hpq (8 * i.val + c.val) (by omega)]

theorem take (n : Nat) (hpq : AgreeAtColumn c p q) : AgreeAtColumn c (p.take n) (q.take n) := fun k hk => by
  rw [List.getElem?_take, List.getElem?_take, hpq k hk]

/-- Whole blocks taken off the front leave every byte in its column. -/
theorem drop_block (hpq : AgreeAtColumn c p q) : AgreeAtColumn c (p.drop 64) (q.drop 64) := fun k hk => by
  rw [List.getElem?_drop, List.getElem?_drop, hpq (64 + k) (by omega)]

theorem append_right (hlen : p.length = q.length) (hpq : AgreeAtColumn c p q) (s : List Byte) :
    AgreeAtColumn c (p ++ s) (q ++ s) := fun k hk => by
  rw [List.getElem?_append, List.getElem?_append, hlen, hpq k hk]

/-- Block by block, from chaining values that agree too (42_round_and_compression.md R145). -/
theorem compressBlocks (cfg : Config) (n : Nat) {h g : Block} (hpq : AgreeAtColumn c p q) (hh : AgreeInColumn c h g) :
    AgreeInColumn c (Machine.compressBlocks cfg n p h) (Machine.compressBlocks cfg n q g) := by
  induction n generalizing p q h g with
  | zero => exact hh
  | succ n ih => exact ih hpq.drop_block (hh.compress cfg (hpq.take 64).loadBlock)

/-- Messages of one length get the same padding and the same length field (44_finalization.md R182). -/
theorem finalBytes (w : LengthWindow) (cnt : BitVec 256) (hlen : p.length = q.length) (hpq : AgreeAtColumn c p q) :
    AgreeAtColumn c (Machine.finalBytes w p cnt) (Machine.finalBytes w q cnt) := by
  simp only [Machine.finalBytes, pad, hlen, List.append_assoc]
  exact hpq.append_right hlen _

theorem bulkDigest (cfg : Config) (hlen : p.length = q.length) (hpq : AgreeAtColumn c p q) :
    AgreeInColumn c (Machine.bulkDigest cfg p) (Machine.bulkDigest cfg q) := by
  have hblocks (cnt : BitVec 256) : (Machine.finalBytes cfg.lengthWindow p cnt).length =
      (Machine.finalBytes cfg.lengthWindow q cnt).length := by
    simp [Machine.finalBytes, hlen]
  rw [Machine.bulkDigest, Machine.bulkDigest, hblocks, hlen]
  exact (hpq.finalBytes _ _ hlen).compressBlocks cfg _ fun _ => rfl

end AgreeAtColumn

/-- Settles O55: a column j ≠ c is one in which the messages agree, and so do the digests. -/
theorem digestKeepsColumns : Obligations.DigestKeepsColumns := by
  intro cfg m n c hlen hmn i j hj
  have hagree : AgreeAtColumn j m n := fun p hp => hmn p fun hc => hj (Fin.ext (hp.symm.trans hc))
  exact hagree.bulkDigest cfg hlen i

end Sys2Proof.Proofs
end

section
/-! The port rejects a word that the row of its OP does not accept (30_encoding.md R62; 60_exceptions.md R301). -/

namespace Sys2Proof.Proofs

open Sys2Proof.Machine

/-- A row of the opcode map accepts words of its own OP only (30_encoding.md R62). -/
theorem fieldOp_of_accepts {r : OpcodeRow} (hr : r ∈ opcodeMap) {cmd : BitVec 32} (h : r.accepts cmd = true) :
    fieldOp cmd = fieldOp r.pattern := by
  obtain ⟨_, hop, _⟩ := (accepts_iff_fields r cmd).mp h
  have hmask : ∀ q ∈ opcodeMap, fieldOp q.mask = BitVec.allOnes 4 := by decide
  rwa [hmask r hr, BitVec.and_allOnes] at hop

/-- No two rows of the opcode map have one OP. -/
theorem opcodeMap_op_injective :
    ∀ r ∈ opcodeMap, ∀ q ∈ opcodeMap, fieldOp r.pattern = fieldOp q.pattern → r = q := by decide

/-- A word on the port that has the OP of a row and is not accepted by that row is rejected with ILLEGAL. -/
theorem runCommand_of_not_accepts {r : OpcodeRow} (hr : r ∈ opcodeMap) {s : State}
    (hop : fieldOp s.cmd = fieldOp r.pattern) (h : r.accepts s.cmd ≠ true) :
    runCommand s = .next (responded .illegal 0 s) := by
  cases hd : decode ⟨s.cmd, s.dataIn⟩ with
  | error e => exact runCommand_of_decode_error hd
  | ok i =>
    obtain ⟨q, hq, hname⟩ := mnemonic_mem_opcodeMap i
    have haq : q.accepts s.cmd = true := (accepts_iff_decodes hq ⟨s.cmd, s.dataIn⟩).mpr ⟨i, hd, hname.symm⟩
    have hqr : q = r := opcodeMap_op_injective q hq r hr ((fieldOp_of_accepts hq haq).symm.trans hop)
    exact absurd (hqr ▸ haq) h

end Sys2Proof.Proofs
end

section
/-! ABSORB in closed form (43_streaming_absorb.md R160 to R165): when it is rejected, what an accepted one makes of the counter
and the buffer, and what a sequence of them leaves. -/

namespace Sys2Proof.Proofs

open Sys2Proof.Machine

/-- The checks of ABSORB in their order, and what is left when none applies (43_streaming_absorb.md R160). -/
theorem exec_absorb_eq (len : BitVec 4) (d : Word) (s : State) :
    exec (.absorb len d) s =
      if 8 < len.toNat then .next (responded .illegal 0 s)
      else if s.phase = .final then .next (responded .finalized 0 s)
      else if 2 ^ 256 ≤ s.cnt.toNat + 8 * len.toNat ∧ s.cfg.overflowPolicy = .reject then
        .next (responded .counterOverflow 0 s)
      else .next (responded .ok 0 (absorbed len d s)) := by
  change execAbsorb len d s = _
  simp only [execAbsorb, absorbLenLegal_eq_false_iff, counterRejects_iff, reject, complete]

/-- An ABSORB whose LEN is legal and whose count fits completes in PHASE = ABSORBING, under either policy. -/
theorem exec_absorb_of_fits {s : State} {len : BitVec 4} (d : Word) (hp : s.phase = .absorbing) (hlen : len.toNat ≤ 8)
    (hfits : s.cnt.toNat + 8 * len.toNat < 2 ^ 256) :
    exec (.absorb len d) s = .next (responded .ok 0 (absorbed len d s)) := by
  rw [exec_absorb_eq, if_neg (not_lt.mpr hlen), if_neg (by simp [hp]), if_neg fun h => absurd hfits (not_lt.mpr h.1)]

/-- The new CNT, as a bit vector of the sum modulo 2^256 (43_streaming_absorb.md R161). -/
theorem counterNext_eq_ofNat_mod (cnt : BitVec 256) (len : BitVec 4) :
    counterNext cnt len = BitVec.ofNat 256 ((cnt.toNat + 8 * len.toNat) % 2 ^ 256) := by
  rw [← counterNext_toNat, BitVec.ofNat_toNat, BitVec.setWidth_eq]

/-- Bytes that reach the end of the block: the full block is compressed and the buffer keeps the bytes after it
(43_streaming_absorb.md R162, R163). -/
theorem appendBytes_of_cross {s : State} (bs : List Byte) (h : s.pos.toNat = s.buf.length)
    (hge : 64 ≤ s.buf.length + bs.length) (hlt : s.buf.length + bs.length < 128) :
    appendBytes s bs =
      { s with
        h := compress s.cfg s.h (loadBlock ((s.buf ++ bs).take 64))
        buf := (s.buf ++ bs).drop 64
        pos := BitVec.ofNat 6 (s.buf.length + bs.length - 64) } := by
  have hbuf := buf_length_lt h
  have hroom : s.buf.length + (64 - s.buf.length) = 64 := by omega
  have hfull := appendBytes_of_full (bs.take (64 - s.buf.length)) h (by rw [List.length_take]; omega)
  have hrest : bs.length - (64 - s.buf.length) = s.buf.length + bs.length - 64 := by omega
  calc appendBytes s bs
    _ = appendBytes (appendBytes s (bs.take (64 - s.buf.length))) (bs.drop (64 - s.buf.length)) := by
      rw [← appendBytes_append, List.take_append_drop]
    _ = _ := by
      rw [hfull, appendBytes_of_room _ rfl (by simp; omega)]
      simp [List.take_append, List.drop_append, hrest, List.take_of_length_le hbuf.le, List.drop_of_length_le hbuf.le]

/-- An accepted ABSORB that leaves the block unfilled. -/
theorem absorbed_of_room {s : State} {len : BitVec 4} (d : Word) (h : s.pos.toNat = s.buf.length) (hlen : len.toNat ≤ 8)
    (hlt : s.buf.length + len.toNat < 64) :
    absorbed len d s =
      { s with
        cnt := counterNext s.cnt len
        buf := s.buf ++ chunk len d
        pos := BitVec.ofNat 6 (s.buf.length + len.toNat) } := by
  rw [← chunk_length d hlen] at hlt ⊢
  exact appendBytes_of_room (s := { s with cnt := counterNext s.cnt len }) (chunk len d) h hlt

/-- An accepted ABSORB that fills the block. -/
theorem absorbed_of_cross {s : State} {len : BitVec 4} (d : Word) (h : s.pos.toNat = s.buf.length) (hlen : len.toNat ≤ 8)
    (hge : 64 ≤ s.buf.length + len.toNat) :
    absorbed len d s =
      { s with
        cnt := counterNext s.cnt len
        h := compress s.cfg s.h (loadBlock ((s.buf ++ chunk len d).take 64))
        buf := (s.buf ++ chunk len d).drop 64
        pos := BitVec.ofNat 6 (s.buf.length + len.toNat - 64) } := by
  have hbuf := buf_length_lt h
  have hlt : s.buf.length + len.toNat < 128 := by omega
  rw [← chunk_length d hlen] at hge hlt ⊢
  exact appendBytes_of_cross (s := { s with cnt := counterNext s.cnt len }) (chunk len d) h hge hlt

/-- Settles O8: a word that the map's row of ABSORB does not accept has no other row; the meaning is the chain of
`exec_absorb_eq`, and at its end the chunk fits into the block or fills it. -/
theorem absorbAppendsChunk : Obligations.AbsorbAppendsChunk := by
  refine ⟨fun s hop hbad => ?_, fun s len d hpos => ?_⟩
  · refine runCommand_of_not_accepts (r := ⟨"ABSORB", 0x20000000, 0xF0FFFFFF, some 8⟩) (by decide) hop fun hacc => ?_
    simp only [OpcodeRow.accepts, Bool.and_eq_true, beq_iff_eq, Option.all_some, decide_eq_true_eq] at hacc
    exact hbad.elim (· hacc.1) (not_lt.mpr hacc.2)
  · rw [exec_absorb_eq]
    refine ite_congr rfl (fun _ => rfl) fun hlen => ite_congr rfl (fun _ => rfl) fun _ =>
      ite_congr rfl (fun _ => rfl) fun _ => ?_
    rw [not_lt] at hlen
    rw [← counterNext_eq_ofNat_mod]
    split
    case isTrue hlt => rw [absorbed_of_room d hpos hlen hlt]; rfl
    case isFalse hge => rw [absorbed_of_cross d hpos hlen (not_lt.mp hge)]; rfl

/-- Settles O9: the three bytes fit into the empty buffer, and the values are computed. -/
theorem absorbExampleAbc : Obligations.AbsorbExampleAbc := by
  unfold Obligations.AbsorbExampleAbc
  rw [exec_absorb_of_fits _ rfl (by decide) (by decide), absorbed_of_room _ rfl (by decide) (by decide)]
  rfl

/-- An ABSORB of no bytes adds nothing to CNT and appends nothing (43_streaming_absorb.md R165). -/
theorem absorbed_zero (d : Word) (s : State) : absorbed 0 d s = s := by
  have hcnt : counterNext s.cnt 0 = s.cnt := BitVec.eq_of_toNat_eq <| by
    rw [counterNext_toNat]
    exact Nat.mod_eq_of_lt s.cnt.isLt
  rw [absorbed, hcnt]
  rfl

/-- Settles O11: with LEN = 0 the count always fits, and `absorbed_zero`. -/
theorem emptyAbsorbIsNoOp : Obligations.EmptyAbsorbIsNoOp := by
  refine fun s d => ⟨fun hp => ?_, fun hp => ?_⟩
  · rw [exec_absorb_of_fits (len := 0) d hp (by decide) s.cnt.isLt, absorbed_zero]
    rfl
  · rw [exec_absorb_eq, if_neg (by decide), if_pos hp]
    rfl

/-- H, BUF and POS are alike: what ABSORB's bytes write (43_streaming_absorb.md R162, R163). -/
def SameBuffer (s u : State) : Prop := s.h = u.h ∧ s.buf = u.buf ∧ s.pos = u.pos

/-- Appending after an accepted ABSORB is appending its chunk and the later bytes: CNT and the response play no part. -/
theorem sameBuffer_appendBytes_absorbed (len : BitVec 4) (d : Word) (s : State) (bs : List Byte) :
    SameBuffer (appendBytes (responded .ok 0 (absorbed len d s)) bs) (appendBytes s (chunk len d ++ bs)) := by
  have hchunk : SameBuffer (absorbed len d s) (appendBytes s (chunk len d)) :=
    appendBytes_congr (s := { s with cnt := counterNext s.cnt len }) (chunk len d) rfl ⟨rfl, rfl, rfl⟩
  rw [appendBytes_append]
  exact appendBytes_congr bs (by simp) hchunk

/-- The bytes that a sequence of ABSORBs appends. -/
def bytesOfAbsorbs (xs : List (BitVec 4 × Word)) : List Byte := xs.flatMap fun x => chunk x.1 x.2

/-- A sequence of ABSORBs that fits completes, and what it leaves is said by its bytes alone. -/
theorem execAll_absorbs {s : State} (xs : List (BitVec 4 × Word)) (hp : s.phase = .absorbing)
    (hlen : ∀ x ∈ xs, x.1.toNat ≤ 8) (hfits : s.cnt.toNat + 8 * (bytesOfAbsorbs xs).length < 2 ^ 256) :
    ∃ t, execAll (xs.map fun x => .absorb x.1 x.2) s = .next t ∧ SameBuffer t (appendBytes s (bytesOfAbsorbs xs)) ∧
      t.cnt.toNat = s.cnt.toNat + 8 * (bytesOfAbsorbs xs).length ∧ t.phase = .absorbing := by
  induction xs generalizing s with
  | nil => exact ⟨s, rfl, ⟨rfl, rfl, rfl⟩, rfl, hp⟩
  | cons x xs ih =>
    obtain ⟨hx, hxs⟩ := List.forall_mem_cons.mp hlen
    have hbytes : bytesOfAbsorbs (x :: xs) = chunk x.1 x.2 ++ bytesOfAbsorbs xs := List.flatMap_cons
    rw [hbytes, List.length_append, chunk_length x.2 hx] at hfits ⊢
    have hfirst := exec_absorb_of_fits x.2 hp hx (by omega)
    have hcnt : (absorbed x.1 x.2 s).cnt.toNat = s.cnt.toNat + 8 * x.1.toNat := by
      rw [absorbed_cnt, counterNext_toNat, Nat.mod_eq_of_lt (by omega)]
    obtain ⟨t, hrun, ⟨hh, hbuf, hpos⟩, htcnt, htp⟩ :=
      ih (s := responded .ok 0 (absorbed x.1 x.2 s)) (by simp [hp]) hxs (by rw [responded_cnt, hcnt]; omega)
    obtain ⟨hh', hbuf', hpos'⟩ := sameBuffer_appendBytes_absorbed x.1 x.2 s (bytesOfAbsorbs xs)
    refine ⟨t, ?_, ⟨hh.trans hh', hbuf.trans hbuf', hpos.trans hpos'⟩, ?_, htp⟩
    · rw [List.map_cons, execAll, hfirst]
      exact hrun
    · rw [htcnt, responded_cnt, hcnt]
      omega

/-- Settles O14: by `execAll_absorbs` both ends are said by the common bytes. -/
theorem chunkSplitDoesNotMatter : Obligations.ChunkSplitDoesNotMatter := by
  intro s xs ys hp hxs hys hsplit hfits
  have hbytes : bytesOfAbsorbs xs = bytesOfAbsorbs ys := hsplit
  obtain ⟨t, ht, ⟨hh, hbuf, hpos⟩, hcnt, hphase⟩ := execAll_absorbs xs hp hxs hfits
  obtain ⟨u, hu, ⟨hh', hbuf', hpos'⟩, hcnt', hphase'⟩ := execAll_absorbs ys hp hys (by rwa [← hbytes])
  have hctx : t.context = u.context := by
    rw [hbytes] at hh hbuf hpos hcnt
    exact (context_eq_iff t u).mpr ⟨hh.trans hh'.symm, hbuf.trans hbuf'.symm, hpos.trans hpos'.symm,
      BitVec.eq_of_toNat_eq (hcnt.trans hcnt'.symm), hphase.trans hphase'.symm⟩
  exact ⟨t, u, ht, hu, hctx, hcnt⟩

end Sys2Proof.Proofs
end

section
/-! READ_DIGEST (44_finalization.md R186; 60_exceptions.md R303), and the words that no row without a LEN limit accepts. -/

namespace Sys2Proof.Proofs

open Sys2Proof.Machine

theorem exec_readDigest_of_absorbing {s : State} (idx : BitVec 3) (hp : s.phase = .absorbing) :
    exec (.readDigest idx) s = .next (responded .notFinal 0 s) := by
  rcases execReadDigest_cases idx s with ⟨_, h⟩ | ⟨hf, _⟩
  · exact h
  · simp [hp] at hf

/-- A word on the port that has the OP of a row without a LEN limit and not its pattern under the mask is rejected with
ILLEGAL (30_encoding.md R62). -/
theorem runCommand_of_mask_ne {r : OpcodeRow} (hr : r ∈ opcodeMap) (hlimit : r.lenLimit = none) {s : State}
    (hop : fieldOp s.cmd = fieldOp r.pattern) (h : s.cmd &&& r.mask ≠ r.pattern) :
    runCommand s = .next (responded .illegal 0 s) := by
  refine runCommand_of_not_accepts hr hop fun hacc => h ?_
  rw [OpcodeRow.accepts, hlimit, Option.all_none, Bool.and_true] at hacc
  exact beq_iff_eq.mp hacc

/-- Settles O5: one lemma for each PHASE, and `runCommand_of_mask_ne` with the row of READ_DIGEST. -/
theorem readDigestReturnsWord : Obligations.ReadDigestReturnsWord :=
  ⟨fun _ idx => exec_readDigest_of_final idx, fun _ idx => exec_readDigest_of_absorbing idx,
    fun _ => runCommand_of_mask_ne (r := ⟨"READ_DIGEST", 0x40000000, 0xFFFFFFF8, none⟩) (by decide) rfl⟩

end Sys2Proof.Proofs
end

section
/-! The padding and the length field (44_finalization.md R181 to R183; 20_memory.md R45). -/

namespace Sys2Proof.Proofs

open Sys2Proof.Machine

theorem pad_length_mod (buf : List Byte) : (pad buf).length % 64 = 32 := by
  rw [pad_length]
  exact add_padZeros_mod _

/-- Settles O16: z is `padZeros`. -/
theorem padEndsAtThirtyTwo : Obligations.PadEndsAtThirtyTwo := fun buf =>
  ⟨padZeros (buf.length + 1), padZeros_lt _, rfl, pad_length_mod buf⟩

/-- Up to 31 bytes leave room for the length field in their own block (44_finalization.md R182). -/
theorem padZeros_of_le {n : Nat} (h : n ≤ 31) : padZeros (n + 1) = 31 - n := by
  unfold padZeros
  omega

/-- From 32 bytes on the length field stands in a second block (44_finalization.md R182). -/
theorem padZeros_of_ge {n : Nat} (h : 32 ≤ n) (h' : n ≤ 63) : padZeros (n + 1) = 95 - n := by
  unfold padZeros
  omega

theorem finalBytes_length (w : LengthWindow) (buf : List Byte) (cnt : BitVec 256) :
    (finalBytes w buf cnt).length = buf.length + 1 + padZeros (buf.length + 1) + 32 := by
  rw [finalBytes, List.length_append, pad_length, lengthField_length]

theorem finalBytes_length_of_le (w : LengthWindow) {buf : List Byte} (cnt : BitVec 256) (h : buf.length ≤ 31) :
    (finalBytes w buf cnt).length = 64 := by
  rw [finalBytes_length, padZeros_of_le h]
  omega

theorem finalBytes_length_of_ge (w : LengthWindow) {buf : List Byte} (cnt : BitVec 256) (h : 32 ≤ buf.length)
    (h' : buf.length ≤ 63) : (finalBytes w buf cnt).length = 128 := by
  rw [finalBytes_length, padZeros_of_ge h h']
  omega

/-- Settles O17: the zeros in either range, and the lengths they make. -/
theorem blockCountDependsOnPos : Obligations.BlockCountDependsOnPos := fun w _ cnt =>
  ⟨fun h => ⟨padZeros_of_le h, finalBytes_length_of_le w cnt h⟩,
    fun h h' => ⟨padZeros_of_ge h h', finalBytes_length_of_ge w cnt h h'⟩⟩

/-- The big-endian value of a list ends with its last byte. -/
theorem bigEndianValue_concat (bs : List Byte) (b : Byte) :
    bigEndianValue (bs ++ [b]) = 256 * bigEndianValue bs + b.toNat := by
  simp [bigEndianValue]

/-- The n low bytes of x, most significant first, are x modulo 256^n. -/
theorem bigEndianValue_reverse_lowBytes (n x : Nat) : bigEndianValue (lowBytes n x).reverse = x % 256 ^ n := by
  induction n generalizing x with
  | zero => simp [lowBytes_zero, bigEndianValue, Nat.mod_one]
  | succ n ih =>
    have hsplit : x % 256 ^ (n + 1) = x % 256 + 256 * (x / 256 % 256 ^ n) := by rw [Nat.pow_succ', Nat.mod_mul]
    rw [lowBytes_succ, List.reverse_cons, bigEndianValue_concat, ih, hsplit, BitVec.toNat_ofNat, Nat.add_comm]

/-- The 32 bytes of a 256-bit value have that value (20_memory.md R45). -/
theorem bigEndianValue_bytesOf256 (x : BitVec 256) : bigEndianValue (bytesOf256 x) = x.toNat := by
  have hpow : 256 ^ 32 = 2 ^ 256 := by norm_num
  rw [← List.reverse_reverse (bytesOf256 x), bytesOf256_reverse, bigEndianValue_reverse_lowBytes, hpow,
    Nat.mod_eq_of_lt x.isLt]

/-- A window of 64 bits shifted left by 3 fits into 256 bits (44_finalization.md R183). -/
theorem bigEndianValue_lengthField (w : LengthWindow) (cnt : BitVec 256) :
    bigEndianValue (lengthField w cnt) = (lengthWindowBits w cnt).toNat * 8 := by
  have hlt := (lengthWindowBits w cnt).isLt
  rw [lengthField, bigEndianValue_bytesOf256, BitVec.toNat_shiftLeft, BitVec.toNat_setWidth, Nat.shiftLeft_eq]
  omega

theorem lengthWindowBits_toNat (w : LengthWindow) (cnt : BitVec 256) :
    (lengthWindowBits w cnt).toNat =
      match w with
      | .high64 => cnt.toNat / 2 ^ 192
      | .low64 => cnt.toNat % 2 ^ 64 := by
  cases w with
  | high64 =>
    have hlt : cnt.toNat / 2 ^ 192 < 2 ^ 64 := by omega
    rw [lengthWindowBits, BitVec.extractLsb'_toNat, Nat.shiftRight_eq_div_pow]
    exact Nat.mod_eq_of_lt hlt
  | low64 => rw [lengthWindowBits, BitVec.extractLsb'_toNat, Nat.shiftRight_zero]

/-- The padding ends half-way through the last block, where the length field begins (44_finalization.md R183). -/
theorem finalBytes_last_block (w : LengthWindow) (buf : List Byte) (cnt : BitVec 256) :
    ∃ n, (finalBytes w buf cnt).length = 64 * (n + 1) ∧
      (finalBytes w buf cnt).drop (64 * n + 32) = lengthField w cnt := by
  have hpad : (pad buf).length = 64 * ((pad buf).length / 64) + 32 := by
    have := pad_length_mod buf
    omega
  refine ⟨(pad buf).length / 64, ?_, List.drop_left' hpad⟩
  rw [finalBytes, List.length_append, lengthField_length]
  omega

/-- Settles O18: the value of the field, of the window, and the place in the last block. -/
theorem lengthFieldHoldsEightTimesWindow : Obligations.LengthFieldHoldsEightTimesWindow := by
  refine fun w cnt => ⟨lengthField_length w cnt, ?_, fun buf => finalBytes_last_block w buf cnt⟩
  rw [bigEndianValue_lengthField, lengthWindowBits_toNat]
  cases w <;> rfl

end Sys2Proof.Proofs
end

section
/-! FINALIZE in closed form (44_finalization.md R180): one padded block or two. -/

namespace Sys2Proof.Proofs

open Sys2Proof.Machine

theorem pad_of_le {buf : List Byte} (h : buf.length ≤ 31) :
    pad buf = buf ++ 0x80#8 :: List.replicate (31 - buf.length) 0#8 := by
  rw [pad, padZeros_of_le h, List.append_assoc]
  rfl

/-- The padding of a buffer past 31 bytes fills its block, and half of another. -/
theorem pad_of_ge {buf : List Byte} (h : 32 ≤ buf.length) (h' : buf.length ≤ 63) :
    pad buf = buf ++ 0x80#8 :: List.replicate (63 - buf.length) 0#8 ++ List.replicate 32 0#8 := by
  have hzeros : 95 - buf.length = 63 - buf.length + 32 := by omega
  rw [pad, padZeros_of_ge h h', hzeros, List.replicate_add]
  simp

theorem compressBlocks_finalBytes_of_le (cfg : Config) (w : LengthWindow) {buf : List Byte} (cnt : BitVec 256) (h : Block)
    (hle : buf.length ≤ 31) :
    compressBlocks cfg ((finalBytes w buf cnt).length / 64) (finalBytes w buf cnt) h =
      compress cfg h (loadBlock (finalBytes w buf cnt)) := by
  have hlen := finalBytes_length_of_le w cnt hle
  rw [hlen]
  exact compressBlocks_one cfg _ h hlen

theorem compressBlocks_two (cfg : Config) (p q : List Byte) (h : Block) (hp : p.length = 64) (hq : q.length = 64) :
    compressBlocks cfg 2 (p ++ q) h = compress cfg (compress cfg h (loadBlock p)) (loadBlock q) := by
  rw [compressBlocks_append cfg 1 1 p q h hp, compressBlocks_one cfg p h hp, compressBlocks_one cfg q _ hq]

theorem finalH_of_le {s : State} (h : s.buf.length ≤ 31) :
    finalH s = compress s.cfg s.h (loadBlock (s.buf ++ 0x80#8 :: List.replicate (31 - s.buf.length) 0#8 ++
      lengthField s.cfg.lengthWindow s.cnt)) := by
  rw [← pad_of_le h]
  exact compressBlocks_finalBytes_of_le s.cfg s.cfg.lengthWindow s.cnt s.h h

theorem finalH_of_ge {s : State} (h : 32 ≤ s.buf.length) (h' : s.buf.length ≤ 63) :
    finalH s = compress s.cfg
      (compress s.cfg s.h (loadBlock (s.buf ++ 0x80#8 :: List.replicate (63 - s.buf.length) 0#8)))
      (loadBlock (List.replicate 32 0#8 ++ lengthField s.cfg.lengthWindow s.cnt)) := by
  rw [finalH, finalBytes_length_of_ge _ _ h h', finalBytes, pad_of_ge h h', List.append_assoc]
  exact compressBlocks_two s.cfg _ _ s.h (by simp; omega) (by simp)

/-- FINALIZE is rejected in PHASE = FINAL and completes otherwise (44_finalization.md R180). -/
theorem exec_finalize_eq (s : State) :
    exec .finalize s =
      if s.phase = .final then .next (responded .finalized 0 s) else .next (responded .ok 0 (finalized s)) := rfl

/-- Settles O15: the word is no FINALIZE by `runCommand_of_mask_ne`, whose mask is all of CMD; and POS = len(BUF) leaves at
most 63 bytes, which `finalH_of_le` and `finalH_of_ge` share. -/
theorem finalizeCompressesPaddedBlocks : Obligations.FinalizeCompressesPaddedBlocks := by
  refine ⟨fun s hop hbad => ?_, fun s hpos => ?_⟩
  · refine runCommand_of_mask_ne (r := ⟨"FINALIZE", 0x30000000, 0xFFFFFFFF, none⟩) (by decide) rfl hop fun hmask => ?_
    exact hbad ((BitVec.and_allOnes (x := s.cmd)).symm.trans hmask)
  · rw [exec_finalize_eq]
    refine ite_congr rfl (fun _ => rfl) fun _ => ?_
    split
    case isTrue hle => rw [← finalH_of_le hle]; rfl
    case isFalse hge =>
      have hlt := buf_length_lt hpos
      rw [← finalH_of_ge (by omega) (by omega)]
      rfl

/-- The chaining value that FINALIZE leaves right after reset: one compression on literals (44_finalization.md R180,
example). -/
theorem finalH_reset :
    finalH State.reset =
      #v[0xb9fa90044a6c2279, 0x73b862ec61a8a6a4, 0x8919ba65acd44051, 0xc608d6e4d3e5d2d1,
        0x2c2219e176f54ce4, 0x42f9428a06b939af, 0xd048d1924bd32bca, 0x3f501bd5e5b50b90] := by decide +kernel

/-- Settles O19: FINALIZE completes at reset, with `finalH_reset`. -/
theorem emptyMessageDigest : Obligations.EmptyMessageDigest := by
  unfold Obligations.EmptyMessageDigest
  rw [exec_finalize_eq, if_neg (by decide), finalized, finalH_reset]
  rfl

end Sys2Proof.Proofs
end

section
/-! The diffusion and the key round beside those of ISO Whirlpool (44_finalization.md R188; 95_test_vectors.md section 1.2): a
single byte spreads over its column here and over its word there. -/

namespace Sys2Proof.Proofs

open Sys2Proof.Machine

/-- The inverses of the diffusion coefficients, in the order of `diffCoeffs`. -/
def diffCoeffInverses : Vector Byte 8 := #v[0x01, 0x01, 0x47, 0x01, 0xAD, 0xA7, 0x8E, 0x9D]

theorem gfMul_diffCoeffInverses : ∀ i : Fin 8, gfMul diffCoeffInverses[i] diffCoeffs[i] = 1#8 := by decide

/-- Multiplying by an entry of either matrix loses no byte: each entry has an inverse. -/
theorem gfMul_diffEntry_eq_zero_iff (rot : DiffRotation) (r k : Fin 8) (b : Byte) :
    gfMul (diffEntry rot r k) b = 0#8 ↔ b = 0#8 := by
  obtain ⟨i, hi⟩ : ∃ i : Fin 8, diffEntry rot r k = diffCoeffs[i] := by cases rot <;> exact ⟨_, rfl⟩
  refine ⟨fun h => ?_, fun h => by rw [h, gfMul_zero_right]⟩
  calc b
    _ = gfMul (gfMul diffCoeffInverses[i] diffCoeffs[i]) b := by rw [gfMul_diffCoeffInverses, gfMul_one_left]
    _ = gfMul diffCoeffInverses[i] (gfMul (diffEntry rot r k) b) := by rw [gfMul_assoc, hi]
    _ = 0#8 := by rw [h, gfMul_zero_right]

/-- Byte (w, c) of a is not 0, and every other byte is. -/
def SingleByte (w c : Fin 8) (a : Block) : Prop := ∀ i j : Fin 8, byte a[i] j ≠ 0 ↔ i = w ∧ j = c

namespace SingleByte

variable {w c : Fin 8} {a : Block}

theorem eq_zero (h : SingleByte w c a) {i j : Fin 8} (hij : ¬(i = w ∧ j = c)) : byte a[i] j = 0#8 :=
  not_not.mp fun hne => hij ((h i j).mp hne)

/-- DIFFUSE reaches every word and keeps the column (41_gf_multiplier_and_diffusion.md R124). -/
theorem byte_diffuse_ne_zero (h : SingleByte w c a) (rot : DiffRotation) (i j : Fin 8) :
    byte (diffuse rot a)[i] j ≠ 0 ↔ j = c := by
  have hsum : byte (diffuse rot a)[i] j = gfMul (diffEntry rot i w) (byte a[w] j) :=
    (byte_diffuse rot a i i.isLt j).trans
      (xorBytes_single w fun k hk => (congrArg (gfMul _) (h.eq_zero fun hand => hk hand.1)).trans (gfMul_zero_right _))
  calc byte (diffuse rot a)[i] j ≠ 0
    _ ↔ byte a[w] j ≠ 0 := by rw [hsum]; exact (gfMul_diffEntry_eq_zero_iff rot i w _).not
    _ ↔ j = c := (h w j).trans (and_iff_right rfl)

/-- The θ of ISO Whirlpool reaches every byte of the word and no other word. -/
theorem byte_isoTheta_ne_zero (h : SingleByte w c a) (i j : Fin 8) : byte (isoTheta a)[i] j ≠ 0 ↔ i = w := by
  have hsum : byte (isoTheta a)[i] j = gfMul (diffEntry .right c j) (byte a[i] c) :=
    (byte_isoTheta a i i.isLt j).trans
      (xorBytes_single c fun k hk => (congrArg (gfMul _) (h.eq_zero fun hand => hk hand.2)).trans (gfMul_zero_right _))
  calc byte (isoTheta a)[i] j ≠ 0
    _ ↔ byte a[i] c ≠ 0 := by rw [hsum]; exact (gfMul_diffEntry_eq_zero_iff .right c j _).not
    _ ↔ i = w := (h i c).trans (and_iff_left rfl)

/-- θ does not leave such a state as it is: it fills the word. -/
theorem isoTheta_ne (h : SingleByte w c a) : isoTheta a ≠ a := by
  intro heq
  have hother : byte (isoTheta a)[w] (c + 1) ≠ 0 := (h.byte_isoTheta_ne_zero w (c + 1)).mpr rfl
  rw [heq] at hother
  exact absurd ((h w (c + 1)).mp hother).2 (by simp)

end SingleByte

/-- Both key rounds xor RC[r] into word 0, so they agree on a key only if θ leaves it alone after SUBPERM. -/
theorem isoTheta_eq_of_keyRound_eq {k : Block} {r : Fin 11} (h : keyRound defaultSbox k r = isoKeyRound k r) :
    isoTheta (subPerm defaultSbox k) = subPerm defaultSbox k := by
  refine block_ext fun i => ?_
  have hword : (keyRound defaultSbox k r)[i] = (isoKeyRound k r)[i] := by rw [h]
  rw [Fin.getElem_fin, Fin.getElem_fin, keyRound, isoKeyRound, blockOfFn_get, blockOfFn_get] at hword
  split at hword
  · exact ((BitVec.xor_left_inj _).mp hword).symm
  · exact hword.symm

/-- Settles O56: all three clauses are about the one byte that is not 0. -/
theorem keyScheduleAndDiffusionDifferFromIso : Obligations.KeyScheduleAndDiffusionDifferFromIso := by
  intro a w c hne hzero
  have hsingle : SingleByte w c a := by
    refine fun i j => ⟨fun hij => ?_, fun ⟨hi, hj⟩ => by rwa [hi, hj]⟩
    by_contra hout
    exact hij (hzero i j (not_and_or.mp hout))
  refine ⟨hsingle.byte_diffuse_ne_zero, hsingle.byte_isoTheta_ne_zero, fun k r hk heq => hsingle.isoTheta_ne ?_⟩
  rw [← hk]
  exact isoTheta_eq_of_keyRound_eq heq

end Sys2Proof.Proofs
end

section
/-! The digests of "" and "abc" beside those of ISO Whirlpool (44_finalization.md R188; 95_test_vectors.md section 9). In column 4
both messages, with their padding and under either window, are blocks of zeros, so that one byte tells the engine's four
digests from the two of ISO Whirlpool. -/

namespace Sys2Proof.Proofs

open Sys2Proof.Machine

/-- The two messages of 95_test_vectors.md section 9 that R188's digests are compared on: "" and "abc". -/
def isoInputs : List (List Byte) := [[], [0x61, 0x62, 0x63]]

theorem length_le_of_mem_isoInputs : ∀ m ∈ isoInputs, m.length ≤ 31 := by decide

/-- The published digest of the empty message: one ISO compression on literals (95_test_vectors.md section 9). -/
theorem isoDigest_empty :
    isoDigest [] =
      #v[0x19fa61d75522a466, 0x9b44e39c1d2e1726, 0xc530232130d407f8, 0x9afee0964997f7a7,
        0x3e83be698b288feb, 0xcf88e3e03c4f0757, 0xea8964e59b63d937, 0x08b138cc42a66eb3] := by decide +kernel

/-- The published digest of "abc": one ISO compression on literals (95_test_vectors.md section 9). -/
theorem isoDigest_abc :
    isoDigest [0x61, 0x62, 0x63] =
      #v[0x4e2448a4c6f486bb, 0x16b6562c73b4020b, 0xf3043e3a731bce72, 0x1ae1b303d97e6d4c,
        0x7181eebdb6c57e27, 0x7d0e34957114cbd6, 0xc797fc9d95d8b582, 0xd225292076d4eef5] := by decide +kernel

/-- COMPRESS reads the table and the rotation, and not the window. -/
theorem compress_setLengthWindow (cfg : Config) (w : LengthWindow) :
    compress { cfg with lengthWindow := w } = compress cfg := rfl

/-- A message of at most 31 bytes is digested in one block. -/
theorem bulkDigest_of_le (cfg : Config) {m : List Byte} (h : m.length ≤ 31) :
    bulkDigest cfg m =
      compress cfg zeroBlock (loadBlock (finalBytes cfg.lengthWindow m (BitVec.ofNat 256 (8 * m.length)))) :=
  compressBlocks_finalBytes_of_le cfg cfg.lengthWindow _ zeroBlock h

/-- The block of either message has no byte in column 4. -/
theorem loadBlock_finalBytes_column_four : ∀ m ∈ isoInputs, ∀ w : LengthWindow,
    AgreeInColumn 4 (loadBlock (finalBytes w m (BitVec.ofNat 256 (8 * m.length)))) zeroBlock := by
  intro m hm w
  unfold AgreeInColumn
  revert m
  cases w <;> decide

/-- Column 4 of the digest of either message is that of COMPRESS(0, 0). -/
theorem bulkDigest_column_four {m : List Byte} (hm : m ∈ isoInputs) (w : LengthWindow) :
    AgreeInColumn 4 (bulkDigest { defaultConfig with lengthWindow := w } m)
      (compress defaultConfig zeroBlock zeroBlock) := by
  rw [bulkDigest_of_le _ (length_le_of_mem_isoInputs m hm), compress_setLengthWindow]
  exact .compress defaultConfig (fun _ => rfl) (loadBlock_finalBytes_column_four m hm w)

/-- FINALIZE right after reset makes the digest of the empty message. -/
theorem finalH_reset_eq_bulkDigest : finalH State.reset = bulkDigest defaultConfig [] :=
  HasAbsorbed.finalH_eq rfl (.clearContext defaultConfig State.reset)

/-- Byte (0, 4) of the engine's four digests, read off the one that `finalH_reset` computes. -/
theorem byte_bulkDigest_column_four {m : List Byte} (hm : m ∈ isoInputs)
    (w : LengthWindow) : byte (bulkDigest { defaultConfig with lengthWindow := w } m)[(0 : Fin 8)] 4 = 0x4A#8 := by
  calc byte (bulkDigest { defaultConfig with lengthWindow := w } m)[(0 : Fin 8)] 4
    _ = byte (compress defaultConfig zeroBlock zeroBlock)[(0 : Fin 8)] 4 := bulkDigest_column_four hm w 0
    _ = byte (bulkDigest defaultConfig [])[(0 : Fin 8)] 4 := (bulkDigest_column_four (by decide) .high64 0).symm
    _ = 0x4A#8 := by rw [← finalH_reset_eq_bulkDigest, finalH_reset]; decide

/-- A digest with another byte (0, 4) is none of the engine's four. -/
theorem bulkDigest_ne_of_byte {m : List Byte} (hm : m ∈ isoInputs) (w : LengthWindow)
    {d : Block} (hd : byte d[(0 : Fin 8)] 4 ≠ 0x4A#8) : bulkDigest { defaultConfig with lengthWindow := w } m ≠ d :=
  fun heq => hd (heq ▸ byte_bulkDigest_column_four hm w)

/-- Settles O57: the two published values, whose byte (0, 4) is 0x55 and 0xC6, and `bulkDigest_ne_of_byte`. -/
theorem digestsDifferFromIso : Obligations.DigestsDifferFromIso := by
  refine ⟨isoDigest_empty, isoDigest_abc, fun w => ⟨?_, ?_⟩⟩
  · exact bulkDigest_ne_of_byte (by decide) w (by rw [isoDigest_empty]; decide)
  · exact bulkDigest_ne_of_byte (by decide) w (by rw [isoDigest_abc]; decide)

end Sys2Proof.Proofs
end

section
/-! The control commands INIT and READ_PARAM (45_control_commands.md R200, R201). -/

namespace Sys2Proof.Proofs

open Sys2Proof.Machine

/-- Settles O2: INIT clears the context in every state; and the mask of its row is all of CMD, so that by
`runCommand_of_mask_ne` no other word of its OP is legal. -/
theorem initStartsNewComputation : Obligations.InitStartsNewComputation := by
  refine ⟨fun s => execInit_eq s, fun s hop hbad => ?_⟩
  refine runCommand_of_mask_ne (r := ⟨"INIT", 0x10000000, 0xFFFFFFFF, none⟩) (by decide) rfl hop fun hmask => ?_
  exact hbad ((BitVec.and_allOnes (x := s.cmd)).symm.trans hmask)

/-- The two parameters have the indices 0 and 1 (30_encoding.md R64). -/
theorem paramIdxLegal_iff (idx : BitVec 3) : paramIdxLegal idx = true ↔ idx = 0#3 ∨ idx = 1#3 := by
  revert idx; decide

theorem exec_readParam_of_legal {idx : BitVec 3} (s : State) (hidx : paramIdxLegal idx = true) :
    exec (.readParam idx) s = .next (responded .ok 64 s) := by
  rcases execReadParam_cases idx s with ⟨_, h⟩ | ⟨hill, _⟩
  · exact h
  · simp [hidx] at hill

theorem exec_readParam_of_illegal {idx : BitVec 3} (s : State) (hidx : paramIdxLegal idx ≠ true) :
    exec (.readParam idx) s = .next (responded .illegal 0 s) := by
  rcases execReadParam_cases idx s with ⟨hleg, _⟩ | ⟨_, h⟩
  · exact absurd hleg hidx
  · exact h

/-- The fields of READ_PARAM make two words, one for each parameter (30_encoding.md R62). -/
theorem HasFieldsOf.eq_of_readParam {cmd : BitVec 32} (h : HasFieldsOf "READ_PARAM" cmd) :
    cmd = 0x50000000#32 ∨ cmd = 0x50000001#32 := by
  obtain ⟨hrsv, hop, hlen, hidx⟩ :
      fieldRsv cmd = 0#21 ∧ fieldOp cmd = 5#4 ∧ fieldLen cmd = 0#4 ∧ (fieldIdx cmd).toNat ≤ 1 := by
    simpa [HasFieldsOf] using h
  rcases (paramIdxLegal_iff _).mp (decide_eq_true hidx) with h0 | h1
  · exact .inl ((cmd_eq_iff_fields _ _).mpr ⟨hrsv, hop, hlen, h0⟩)
  · exact .inr ((cmd_eq_iff_fields _ _).mpr ⟨hrsv, hop, hlen, h1⟩)

/-- Settles O4: one lemma for the legal and one for the illegal indices, and a word that the row of READ_PARAM accepts has
the fields of one of the two words. -/
theorem readParamReturnsSizes : Obligations.ReadParamReturnsSizes := by
  refine ⟨fun s idx hidx => exec_readParam_of_legal s ((paramIdxLegal_iff idx).mpr hidx), fun s idx h0 h1 => ?_,
    fun s hop h0 h1 => ?_⟩
  · exact exec_readParam_of_illegal s fun hleg => ((paramIdxLegal_iff idx).mp hleg).elim h0 h1
  · have hrow : (⟨"READ_PARAM", 0x50000000, 0xFFFFFFFE, none⟩ : OpcodeRow) ∈ opcodeMap := by decide
    refine runCommand_of_not_accepts hrow hop fun hacc => ?_
    exact ((accepts_iff_hasFieldsOf hrow s.cmd).mp hacc).eq_of_readParam.elim h0 h1

end Sys2Proof.Proofs
end

section
/-! The statuses of a rejection and their order (60_exceptions.md R300 to R305): what the counter's overflow does under either
policy, what a rejected command leaves, and PHASE = FINAL until INIT. -/

namespace Sys2Proof.Proofs

open Sys2Proof.Machine

/-- An overflowing sum wraps once: LEN is far smaller than CNT's range (43_streaming_absorb.md R161). -/
theorem counterNext_toNat_of_overflow {cnt : BitVec 256} {len : BitVec 4} (h : 2 ^ 256 ≤ cnt.toNat + 8 * len.toNat) :
    (counterNext cnt len).toNat + 2 ^ 256 = cnt.toNat + 8 * len.toNat := by
  have hcnt := cnt.isLt
  have hlen := len.isLt
  rw [counterNext_toNat]
  omega

/-- Settles O12, by the chain of `exec_absorb_eq`: the policy decides its third test. -/
theorem counterOverflowFollowsPolicy : Obligations.CounterOverflowFollowsPolicy := by
  refine ⟨fun s len d hlen hp hover => ⟨fun hpol => ?_, fun hpol => ?_⟩, fun s t len d hpol h => ?_⟩
  · rw [exec_absorb_eq, if_neg (not_lt.mpr hlen), if_neg (by simp [hp]), if_pos ⟨hover, hpol⟩]
    rfl
  · rw [exec_absorb_eq, if_neg (not_lt.mpr hlen), if_neg (by simp [hp]), if_neg (by simp [hpol])]
    exact ⟨_, rfl, rfl, rfl, by simpa using counterNext_toNat_of_overflow hover⟩
  · rw [exec_absorb_eq, if_neg (c := _ ∧ _) (by simp [hpol])] at h
    split_ifs at h <;> cases h <;> simp [statusCode]

/-- What is left of the list for a legal ABSORB (60_exceptions.md R305). -/
theorem priorityStatus_of_absorb {c : Command} (s : State) (hlegal : illegalWord c.cmd = false)
    (ho : fieldOp c.cmd = 2#4) :
    priorityStatus c s =
      if s.phase = .final then .finalized
      else if counterRejects s.cfg s.cnt (fieldLen c.cmd) then .counterOverflow
      else .ok := by
  simp [priorityStatus, hlegal, ho, counterRejects_iff, and_comm]

/-- A legal word reports the first condition of 60_exceptions.md R305 after ILLEGAL: command by command. -/
theorem exec_status_of_decode {c : Command} {i : Instr} (h : decode c = .ok i) (s : State) :
    ∃ t, exec i s = .next t ∧ t.status = statusCode (priorityStatus c s) := by
  have hlegal : illegalWord c.cmd = false := by
    rw [← Bool.not_eq_true, ← decode_error_iff_illegalWord, h]
    simp
  obtain ⟨_, hrow⟩ := (decode_ok_iff c i).mp h
  rcases hrow with ⟨ho, _, _, rfl⟩ | ⟨ho, _, hlen, rfl⟩ | ⟨ho, _, _, rfl⟩ | ⟨ho, _, rfl⟩ | ⟨ho, _, hidx, rfl⟩
  · exact ⟨_, execInit_eq s, by simp [priorityStatus, hlegal, ho]⟩
  · have hprio := priorityStatus_of_absorb s hlegal ho
    rcases execAbsorb_cases (fieldLen c.cmd) c.dataIn s with ⟨hill, _⟩ | ⟨_, hp, e⟩ | ⟨_, hp, hc, e⟩ | ⟨_, hp, hc, e⟩
    · simp [hlen] at hill
    · exact ⟨_, e, by simp [hprio, hp]⟩
    · exact ⟨_, e, by simp [hprio, hp, hc]⟩
    · exact ⟨_, e, by simp [hprio, hp, hc]⟩
  · rcases execFinalize_cases s with ⟨hp, e⟩ | ⟨hp, e⟩ <;> exact ⟨_, e, by simp [priorityStatus, hlegal, ho, hp]⟩
  · rcases execReadDigest_cases (fieldIdx c.cmd) s with ⟨hp, e⟩ | ⟨hp, e⟩ <;>
      exact ⟨_, e, by simp [priorityStatus, hlegal, ho, hp]⟩
  · exact ⟨_, exec_readParam_of_legal s hidx, by simp [priorityStatus, hlegal, ho]⟩

theorem runCommand_of_decode_ok {s : State} {i : Instr} (h : decode ⟨s.cmd, s.dataIn⟩ = .ok i) :
    runCommand s = exec i s := by rw [runCommand, h]

/-- Settles O41: `illegalWord` is what the decoder refuses, and `exec_status_of_decode` has the rest of the list. -/
theorem statusFollowsPriority : Obligations.StatusFollowsPriority := by
  intro s
  cases hd : decode ⟨s.cmd, s.dataIn⟩ with
  | error e =>
    have hill : illegalWord s.cmd = true := (decode_error_iff_illegalWord ⟨s.cmd, s.dataIn⟩).mp ⟨e, hd⟩
    exact ⟨_, runCommand_of_decode_error hd, by simp [priorityStatus, hill]⟩
  | ok i =>
    rw [runCommand_of_decode_ok hd]
    exact exec_status_of_decode hd s

/-- A meaning whose status is not OK wrote the response alone: every completing case of `exec_cases` reports OK. -/
theorem exec_rejected {i : Instr} {s t : State} (h : exec i s = .next t) (hst : t.status ≠ 0) :
    ∃ st, t = responded st 0 s := by
  rcases exec_cases i s with ⟨st, _, e⟩ | ⟨_, e⟩ | ⟨_, _, _, _, _, _, e⟩ | ⟨_, _, e⟩ | ⟨_, _, _, e⟩ | ⟨_, _, _, e⟩ <;>
    cases e.symm.trans h
  · exact ⟨st, rfl⟩
  all_goals exact absurd rfl hst

/-- Settles O42: the decoder's rejection and, by `exec_rejected`, each of a meaning's is a `responded` with DATA_OUT = 0. -/
theorem rejectionChangesNothing : Obligations.RejectionChangesNothing := by
  intro s t h hst
  cases hd : decode ⟨s.cmd, s.dataIn⟩ with
  | error e =>
    cases (runCommand_of_decode_error hd).symm.trans h
    rfl
  | ok i =>
    obtain ⟨st, rfl⟩ := exec_rejected ((runCommand_of_decode_ok hd).symm.trans h) hst
    rfl

/-- In PHASE = FINAL every command but INIT writes a response and nothing else (60_exceptions.md R302). -/
theorem exec_of_final {i : Instr} {s : State} (hp : s.phase = .final) (hi : i ≠ .init) :
    ∃ st d, exec i s = .next (responded st d s) := by
  rcases exec_cases i s with ⟨st, _, e⟩ | ⟨rfl, _⟩ | ⟨_, _, _, _, ha, _, _⟩ | ⟨_, ha, _⟩ | ⟨_, _, _, e⟩ | ⟨_, _, _, e⟩
  · exact ⟨st, 0, e⟩
  · exact absurd rfl hi
  · simp [hp] at ha
  · simp [hp] at ha
  · exact ⟨.ok, _, e⟩
  · exact ⟨.ok, _, e⟩

/-- Settles O43: the second tests of ABSORB and FINALIZE, and by `exec_of_final` PHASE stays under all but INIT. -/
theorem finalizedUntilInit : Obligations.FinalizedUntilInit := by
  refine ⟨fun s len d hp hlen => ?_, fun s hp => ?_, fun s t i hp h => ⟨fun ht => ?_, ?_⟩⟩
  · rw [exec_absorb_eq, if_neg (not_lt.mpr hlen), if_pos hp]
    rfl
  · rw [exec_finalize_eq, if_pos hp]
    rfl
  · by_contra hi
    obtain ⟨st, d, e⟩ := exec_of_final hp hi
    cases e.symm.trans h
    simp [hp] at ht
  · rintro rfl
    cases (execInit_eq s).symm.trans h
    rfl

end Sys2Proof.Proofs
end

section
/-! The engine between commands and over a run: idle it holds, and nothing stops it (60_exceptions.md R306, R313, R315). -/

namespace Sys2Proof.Proofs

open Sys2Proof.Machine

/-- Settles O40: with no event pending `takeEvent` answers the state itself. -/
theorem idleEngineHolds : Obligations.IdleEngineHolds := by
  intro s hc hh
  have holds : takeEvent s = .next s := by simp only [takeEvent, hh]
  exact (if_pos hc).trans holds

/-- Settles O48, by induction on the number of steps: an accepted engine steps, and no step writes the ROM. -/
theorem acceptedEngineNeverStops : Obligations.AcceptedEngineNeverStops := by
  intro k
  induction k with
  | zero => exact fun s _ => ⟨s, rfl⟩
  | succ k ih =>
    intro s hc
    obtain ⟨u, hu⟩ := step_answers_next hc
    rw [run_succ k hu]
    exact ih u (romIsNeverWritten s u hu ▸ hc)

end Sys2Proof.Proofs
end

section
/-! Reset, and how long a digest stays (10_state.md R30; 44_finalization.md R185; 70_reset_and_hazards.md R400, R401, R407). -/

namespace Sys2Proof.Proofs

open Sys2Proof.Machine

/-- Settles O1: `step_of_reset` gives the state, whose registers are the reset values. -/
theorem resetEventSetsResetValues : Obligations.ResetEventSetsResetValues := fun _ _ hc hh =>
  ⟨_, step_of_reset hc hh, rfl, rfl, rfl, rfl, rfl, rfl, rfl, rfl, rfl, rfl, rfl⟩

/-- Settles O3: a reset and INIT both clear the context and respond (OK, 0). -/
theorem resetEqualsInit : Obligations.ResetEqualsInit := fun _ u _ hc hh hcfg =>
  ⟨_, _, step_of_reset hc hh, execInit_eq u, rfl, rfl, hcfg.symm⟩

/-- In PHASE = FINAL only a restart changes the context in one step (70_reset_and_hazards.md R407). -/
theorem step_context_of_final {s t : State} (hp : s.phase = .final) (hr : ¬ RestartIsNext s) (h : step s = .next t) :
    t.context = s.context := by
  rcases step_next_cases h with ⟨_, rfl⟩ | ⟨rest, hh, _⟩ | ⟨_, _, _, _, _, rfl⟩ | ⟨_, _, hh, hd, _⟩ |
    ⟨_, _, _, _, _, _, _, ha, _, _⟩ | ⟨_, _, _, _, ha, _⟩ | ⟨_, _, _, _, rfl⟩
  · rfl
  · exact absurd ⟨rest, .inl hh⟩ hr
  · rfl
  · exact absurd (restartIsNext_of_decode_init hh hd) hr
  · simp [hp] at ha
  · simp [hp] at ha
  · rfl

theorem not_restartIsNext_of_take {s : State} {k : Nat}
    (hev : ∀ e ∈ s.host.take (k + 1), e ≠ .reset ∧ ∀ d, e ≠ .command ⟨0x10000000, d⟩) : ¬ RestartIsNext s := by
  rintro ⟨rest, hh | ⟨d, hh⟩⟩ <;> simp [hh] at hev

/-- Settles O44, by induction on the number of steps: each keeps the context, and with it PHASE = FINAL. -/
theorem digestStaysUntilInit : Obligations.DigestStaysUntilInit := by
  intro k
  induction k with
  | zero => intro s t _ _ h; cases h; rfl
  | succ k ih =>
    intro s t hp hev h
    obtain ⟨u, hu, hrun⟩ := run_succ_next h
    have hctx : u.context = s.context := step_context_of_final hp (not_restartIsNext_of_take hev) hu
    have hphase : u.phase = .final := (congrArg Context.phase hctx).trans hp
    have htake : u.host.take k = (s.host.take (k + 1)).tail := by
      rw [step_host hu, List.tail_take_eq_take_tail, Nat.add_sub_cancel]
    exact (ih u t hphase (fun e he => hev e (List.mem_of_mem_tail (htake ▸ he))) hrun).trans hctx

end Sys2Proof.Proofs
end
